-- ==== Sys2Proof/Word.lean ====
section
/-! DEFINITION. The machine's value types (spec 00_scope.md R4, R5): bytes, 16-bit words, register numbers. -/

namespace Sys2Proof

/-- An 8-bit value: a general register, a memory cell, a timer, an immediate `nn` (R4 `REG_W`, R23). -/
abbrev Byte := BitVec 8

/-- A 16-bit value: an instruction word, `pc`, `I`, a stack cell (R4 `INSTR_W`, `PC_W`, `I_W`, `STACK_W`). -/
abbrev Word := BitVec 16

/-- A register number 0..15, V0..VF (R21). -/
abbrev Reg := Fin 16

/-- The number of the flag register VF (R21, R22). -/
abbrev VF : Reg := 15

end Sys2Proof
end

