-- ==== Sys2Proof/Syntax.lean ====
section
/-! DEFINITION. The instructions of CORE: one constructor per row of spec/opcode_table.json, in the table's order
(spec 30_encoding.md R81). Operands are the fields of R6; a bit that R79 says is ignored is no operand. -/

namespace Sys2Proof

/-- The 35 instructions and the catch-all row of R81. `x`, `y` are register numbers, `n`, `nn`, `nnn` immediates (R6). -/
inductive Instr where
  /-- 00E0 (R160). -/
  | cls
  /-- 00EE (R101). -/
  | ret
  /-- 0NNN (R100): every family-0 word but 00E0 and 00EE. -/
  | sys (nnn : BitVec 12)
  /-- 1NNN (R102). -/
  | jp (nnn : BitVec 12)
  /-- 2NNN (R103). -/
  | call (nnn : BitVec 12)
  /-- 3XNN (R120). -/
  | seImm (x : Reg) (nn : Byte)
  /-- 4XNN (R121). -/
  | sneImm (x : Reg) (nn : Byte)
  /-- 5XY0 (R122), low nibble ignored. -/
  | seReg (x y : Reg)
  /-- 6XNN (R130). -/
  | ldImm (x : Reg) (nn : Byte)
  /-- 7XNN (R131). -/
  | addImm (x : Reg) (nn : Byte)
  /-- 8XY0 (R140). -/
  | ldReg (x y : Reg)
  /-- 8XY1 (R141). -/
  | orReg (x y : Reg)
  /-- 8XY2 (R142). -/
  | andReg (x y : Reg)
  /-- 8XY3 (R143). -/
  | xorReg (x y : Reg)
  /-- 8XY4 (R144). -/
  | addReg (x y : Reg)
  /-- 8XY5 (R145). -/
  | subReg (x y : Reg)
  /-- 8XY6 (R146), y ignored. -/
  | shr (x : Reg)
  /-- 8XY7 (R147). -/
  | subnReg (x y : Reg)
  /-- 8XYE (R148), y ignored. -/
  | shl (x : Reg)
  /-- 9XY0 (R123), low nibble ignored. -/
  | sneReg (x y : Reg)
  /-- ANNN (R180). -/
  | ldI (nnn : BitVec 12)
  /-- BNNN (R104). -/
  | jpV0 (nnn : BitVec 12)
  /-- CXNN (R133). -/
  | rnd (x : Reg) (nn : Byte)
  /-- DXYN (R161). -/
  | drw (x y : Reg) (n : BitVec 4)
  /-- EX9E (R124). -/
  | skp (x : Reg)
  /-- EXA1 (R125). -/
  | sknp (x : Reg)
  /-- FX07 (R170). -/
  | ldVxDt (x : Reg)
  /-- FX0A (R171). -/
  | ldVxK (x : Reg)
  /-- FX15 (R172). -/
  | ldDtVx (x : Reg)
  /-- FX18 (R173). -/
  | ldStVx (x : Reg)
  /-- FX1E (R181). -/
  | addI (x : Reg)
  /-- FX29 (R182). -/
  | ldF (x : Reg)
  /-- FX33 (R183). -/
  | ldB (x : Reg)
  /-- FX55 (R184); `x` is the number of the last register stored. -/
  | storeRegs (x : Reg)
  /-- FX65 (R185); `x` is the number of the last register loaded. -/
  | loadRegs (x : Reg)
  /-- Any other word (R105): the word itself, which the warning carries. -/
  | unrecognized (op : Word)
  deriving DecidableEq, Repr

end Sys2Proof
end

