-- ==== Sys2Proof/WellFormed.lean ====
section
/-! DEFINITION. Which terms of `Instr` stand for a word of the machine (spec 30_encoding.md R74 to R81). Register numbers and
immediates are bounded by their types; two constructors need a check. -/

namespace Sys2Proof

/-- `op[hi:lo]` as an unsigned integer (R5). -/
def WellFormed.bits (op : Word) (hi lo : Nat) : Nat := op.toNat / 2 ^ lo % 2 ^ (hi + 1 - lo)

/-- The low bytes of family 0xF that select an instruction (R77). -/
def WellFormed.familyFCodes : List Nat := [0x07, 0x0A, 0x15, 0x18, 0x1E, 0x29, 0x33, 0x55, 0x65]

/-- The words of families 8, E and F that no row of R81 but the catch-all matches (R75, R76, R77, R80). -/
def WellFormed.unassigned (op : Word) : Bool :=
  (bits op 15 12 == 0x8 && [0x8, 0x9, 0xA, 0xB, 0xC, 0xD, 0xF].contains (bits op 3 0)) ||
  (bits op 15 12 == 0xE && !([0x9E, 0xA1].contains (bits op 7 0))) ||
  (bits op 15 12 == 0xF && !(familyFCodes.contains (bits op 7 0)))

/-- A SYS word is none of the two whole-word rows before it (R74), and an `unrecognized` term carries an unassigned word. -/
def Instr.wf : Instr → Bool
  | .sys nnn => nnn != 0x0E0#12 && nnn != 0x0EE#12
  | .unrecognized op => WellFormed.unassigned op
  | .cls | .ret | .jp _ | .call _ | .seImm _ _ | .sneImm _ _ | .seReg _ _ | .ldImm _ _ | .addImm _ _
  | .ldReg _ _ | .orReg _ _ | .andReg _ _ | .xorReg _ _ | .addReg _ _ | .subReg _ _ | .shr _ | .subnReg _ _ | .shl _
  | .sneReg _ _ | .ldI _ | .jpV0 _ | .rnd _ _ | .drw _ _ _ | .skp _ | .sknp _ | .ldVxDt _ | .ldVxK _ | .ldDtVx _
  | .ldStVx _ | .addI _ | .ldF _ | .ldB _ | .storeRegs _ | .loadRegs _ => true

end Sys2Proof
end

