-- ==== Sys2Proof/Decode.lean ====
section
/-! DEFINITION. From bytes to instructions (spec 30_encoding.md R70 to R81): the fields of a word, the decode tree of R78, decoding
of a byte string, the encoder, and the opcode map of R81 as a list of mask and pattern rows. -/

namespace Sys2Proof

/-- `op[hi:lo]`, the slice of `op` from bit `hi` down to bit `lo` as an unsigned integer (R5). -/
def slice (op : Word) (hi lo : Nat) : Nat := op.toNat / 2 ^ lo % 2 ^ (hi + 1 - lo)

/-- `x = op[11:8]` (R6). -/
def fieldX (op : Word) : Reg := Fin.ofNat 16 (slice op 11 8)

/-- `y = op[7:4]` (R6). -/
def fieldY (op : Word) : Reg := Fin.ofNat 16 (slice op 7 4)

/-- `n = op[3:0]` (R6). -/
def fieldN (op : Word) : BitVec 4 := BitVec.ofNat 4 (slice op 3 0)

/-- `nn = op[7:0]` (R6). -/
def fieldNN (op : Word) : Byte := BitVec.ofNat 8 (slice op 7 0)

/-- `nnn = op[11:0]` (R6). -/
def fieldNNN (op : Word) : BitVec 12 := BitVec.ofNat 12 (slice op 11 0)

/-- Family 0x0: CLS and RET on the whole word, every other word SYS (R74, log 21). -/
def decodeFamily0 (op : Word) : Instr :=
  if op = 0x00E0#16 then .cls else if op = 0x00EE#16 then .ret else .sys (fieldNNN op)

/-- Family 0x8, on the low nibble (R75, log 27). -/
def decodeFamily8 (op : Word) : Instr :=
  let x := fieldX op
  let y := fieldY op
  match slice op 3 0 with
  | 0x0 => .ldReg x y
  | 0x1 => .orReg x y
  | 0x2 => .andReg x y
  | 0x3 => .xorReg x y
  | 0x4 => .addReg x y
  | 0x5 => .subReg x y
  | 0x6 => .shr x
  | 0x7 => .subnReg x y
  | 0xE => .shl x
  | _ => .unrecognized op

/-- Family 0xE, on the low byte (R76). -/
def decodeFamilyE (op : Word) : Instr :=
  let x := fieldX op
  let nn := slice op 7 0
  if nn = 0x9E then .skp x
  else if nn = 0xA1 then .sknp x
  else .unrecognized op

/-- Family 0xF, on the low byte (R77). -/
def decodeFamilyF (op : Word) : Instr :=
  let x := fieldX op
  let nn := slice op 7 0
  if nn = 0x07 then .ldVxDt x
  else if nn = 0x0A then .ldVxK x
  else if nn = 0x15 then .ldDtVx x
  else if nn = 0x18 then .ldStVx x
  else if nn = 0x1E then .addI x
  else if nn = 0x29 then .ldF x
  else if nn = 0x33 then .ldB x
  else if nn = 0x55 then .storeRegs x
  else if nn = 0x65 then .loadRegs x
  else .unrecognized op

/-- The decode function of R78, total on all 65536 words: first level on `op[15:12]` (R73). -/
def decodeWord (op : Word) : Instr :=
  match slice op 15 12 with
  | 0x0 => decodeFamily0 op
  | 0x1 => .jp (fieldNNN op)
  | 0x2 => .call (fieldNNN op)
  | 0x3 => .seImm (fieldX op) (fieldNN op)
  | 0x4 => .sneImm (fieldX op) (fieldNN op)
  | 0x5 => .seReg (fieldX op) (fieldY op)
  | 0x6 => .ldImm (fieldX op) (fieldNN op)
  | 0x7 => .addImm (fieldX op) (fieldNN op)
  | 0x8 => decodeFamily8 op
  | 0x9 => .sneReg (fieldX op) (fieldY op)
  | 0xA => .ldI (fieldNNN op)
  | 0xB => .jpV0 (fieldNNN op)
  | 0xC => .rnd (fieldX op) (fieldNN op)
  | 0xD => .drw (fieldX op) (fieldY op) (fieldN op)
  | 0xE => decodeFamilyE op
  | _ => decodeFamilyF op

/-- The word of two bytes, the first (lower address) being `op[15:8]` (R51, R57). -/
def wordOfBytes (hi lo : Byte) : Word := BitVec.ofNat 16 (hi.toNat * 256 + lo.toNat)

/-- Byte `op[15:8]`, stored at the lower address (R57). -/
def highByte (op : Word) : Byte := BitVec.ofNat 8 (slice op 15 8)

/-- Byte `op[7:0]`, stored at the higher address (R57). -/
def lowByte (op : Word) : Byte := BitVec.ofNat 8 (slice op 7 0)

/-- Why a byte string is no instruction: it is shorter than the one instruction length (R70), with the number of bytes found. -/
inductive DecodeError where
  | truncated (found : Nat)
  deriving DecidableEq, Repr

/-- The first instruction of a byte string and the rest of the string (R70). -/
def decode : List Byte → Except DecodeError (Instr × List Byte)
  | hi :: lo :: rest => .ok (decodeWord (wordOfBytes hi lo), rest)
  | [_] => .error (.truncated 1)
  | [] => .error (.truncated 0)

/-- A word of formats XYN and XKK from its four nibbles, most significant first (R71). -/
def wordXYN (family x y n : Nat) : Word := BitVec.ofNat 16 (family * 4096 + x * 256 + y * 16 + n)

/-- A word of formats XNN and XKK from family, register number and low byte (R71). -/
def wordXNN (family x nn : Nat) : Word := BitVec.ofNat 16 (family * 4096 + x * 256 + nn)

/-- A word of format NNN (R71). -/
def wordNNN (family nnn : Nat) : Word := BitVec.ofNat 16 (family * 4096 + nnn)

/-- The word of an instruction (R71, R81), with 0 in every ignored field (R79 "An assembler emits 0"). -/
def encode : Instr → Word
  | .cls => 0x00E0#16
  | .ret => 0x00EE#16
  | .sys nnn => wordNNN 0x0 nnn.toNat
  | .jp nnn => wordNNN 0x1 nnn.toNat
  | .call nnn => wordNNN 0x2 nnn.toNat
  | .seImm x nn => wordXNN 0x3 x nn.toNat
  | .sneImm x nn => wordXNN 0x4 x nn.toNat
  | .seReg x y => wordXYN 0x5 x y 0x0
  | .ldImm x nn => wordXNN 0x6 x nn.toNat
  | .addImm x nn => wordXNN 0x7 x nn.toNat
  | .ldReg x y => wordXYN 0x8 x y 0x0
  | .orReg x y => wordXYN 0x8 x y 0x1
  | .andReg x y => wordXYN 0x8 x y 0x2
  | .xorReg x y => wordXYN 0x8 x y 0x3
  | .addReg x y => wordXYN 0x8 x y 0x4
  | .subReg x y => wordXYN 0x8 x y 0x5
  | .shr x => wordXYN 0x8 x 0x0 0x6
  | .subnReg x y => wordXYN 0x8 x y 0x7
  | .shl x => wordXYN 0x8 x 0x0 0xE
  | .sneReg x y => wordXYN 0x9 x y 0x0
  | .ldI nnn => wordNNN 0xA nnn.toNat
  | .jpV0 nnn => wordNNN 0xB nnn.toNat
  | .rnd x nn => wordXNN 0xC x nn.toNat
  | .drw x y n => wordXYN 0xD x y n.toNat
  | .skp x => wordXNN 0xE x 0x9E
  | .sknp x => wordXNN 0xE x 0xA1
  | .ldVxDt x => wordXNN 0xF x 0x07
  | .ldVxK x => wordXNN 0xF x 0x0A
  | .ldDtVx x => wordXNN 0xF x 0x15
  | .ldStVx x => wordXNN 0xF x 0x18
  | .addI x => wordXNN 0xF x 0x1E
  | .ldF x => wordXNN 0xF x 0x29
  | .ldB x => wordXNN 0xF x 0x33
  | .storeRegs x => wordXNN 0xF x 0x55
  | .loadRegs x => wordXNN 0xF x 0x65
  | .unrecognized op => op

/-- The two bytes of an instruction as memory holds them, lower address first (R57, R70). -/
def encodeBytes (i : Instr) : List Byte := [highByte (encode i), lowByte (encode i)]

/-- The (mask, match) columns of R81, rows 1 to 36 from the top. -/
def opcodeRows : List (Word × Word) :=
  [(0xFFFF, 0x00E0), (0xFFFF, 0x00EE), (0xF000, 0x0000), (0xF000, 0x1000), (0xF000, 0x2000), (0xF000, 0x3000),
   (0xF000, 0x4000), (0xF000, 0x5000), (0xF000, 0x6000), (0xF000, 0x7000), (0xF00F, 0x8000), (0xF00F, 0x8001)] ++
  [(0xF00F, 0x8002), (0xF00F, 0x8003), (0xF00F, 0x8004), (0xF00F, 0x8005), (0xF00F, 0x8006), (0xF00F, 0x8007),
   (0xF00F, 0x800E), (0xF000, 0x9000), (0xF000, 0xA000), (0xF000, 0xB000), (0xF000, 0xC000), (0xF000, 0xD000)] ++
  [(0xF0FF, 0xE09E), (0xF0FF, 0xE0A1), (0xF0FF, 0xF007), (0xF0FF, 0xF00A), (0xF0FF, 0xF015), (0xF0FF, 0xF018),
   (0xF0FF, 0xF01E), (0xF0FF, 0xF029), (0xF0FF, 0xF033), (0xF0FF, 0xF055), (0xF0FF, 0xF065), (0x0000, 0x0000)]

/-- The number of the first row, counted from `k`, that the word matches (R81 "the first match wins"). -/
def firstMatch (op : Word) : List (Word × Word) → Nat → Nat
  | [], k => k
  | (mask, pattern) :: rows, k => if op &&& mask = pattern then k else firstMatch op rows (k + 1)

/-- The row of R81 that selects the word, 1 to 36. -/
def tableRow (op : Word) : Nat := firstMatch op opcodeRows 1

/-- The row of R81 an instruction stands in. -/
def Instr.row : Instr → Nat
  | .cls => 1
  | .ret => 2
  | .sys _ => 3
  | .jp _ => 4
  | .call _ => 5
  | .seImm _ _ => 6
  | .sneImm _ _ => 7
  | .seReg _ _ => 8
  | .ldImm _ _ => 9
  | .addImm _ _ => 10
  | .ldReg _ _ => 11
  | .orReg _ _ => 12
  | .andReg _ _ => 13
  | .xorReg _ _ => 14
  | .addReg _ _ => 15
  | .subReg _ _ => 16
  | .shr _ => 17
  | .subnReg _ _ => 18
  | .shl _ => 19
  | .sneReg _ _ => 20
  | .ldI _ => 21
  | .jpV0 _ => 22
  | .rnd _ _ => 23
  | .drw _ _ _ => 24
  | .skp _ => 25
  | .sknp _ => 26
  | .ldVxDt _ => 27
  | .ldVxK _ => 28
  | .ldDtVx _ => 29
  | .ldStVx _ => 30
  | .addI _ => 31
  | .ldF _ => 32
  | .ldB _ => 33
  | .storeRegs _ => 34
  | .loadRegs _ => 35
  | .unrecognized _ => 36

/-- The word with 0 in the bits R79 says are ignored: what the encoder writes for the instruction the word decodes to. -/
def canonicalWord (op : Word) : Word :=
  if slice op 15 12 = 0x5 ∨ slice op 15 12 = 0x9 then op &&& 0xFFF0#16
  else if slice op 15 12 = 0x8 ∧ (slice op 3 0 = 0x6 ∨ slice op 3 0 = 0xE) then op &&& 0xFF0F#16
  else op

/-- The instruction the decoder reads from the table word `w` of `nbits` bits (bits at and above `nbits` are 0): the word is laid
out high byte first, as memory holds it (R57), and decoded. -/
def decodeTableWord (nbits w : Nat) : Option Instr :=
  let op : Word := BitVec.ofNat 16 (w % 2 ^ nbits)
  match decode [highByte op, lowByte op] with
  | .ok (i, _) => some i
  | .error _ => none

end Sys2Proof
end

