-- ==== Sys2Proof/Config.lean ====
section
/-! DEFINITION. The implementation parameters of CORE (spec 00_scope.md R4) that are fixed numbers, the type of the
open parameter BNNN_MODE, and the free value of CXNN. (The default of BNNN_MODE and the table FONT stand in
Machine/Params.lean.) -/

namespace Sys2Proof.Config

/-- `MEM_SIZE`: number of memory cells (R4, R23). -/
@[simp] abbrev memSize : Nat := 4096

/-- `STACK_DEPTH`: largest number of saved return addresses (R4, R27). -/
@[simp] abbrev stackDepth : Nat := 16

/-- `FB_COLS`: framebuffer columns (R4, R30). -/
@[simp] abbrev fbCols : Nat := 64

/-- `FB_ROWS`: framebuffer rows (R4, R30). -/
@[simp] abbrev fbRows : Nat := 32

/-- `NKEYS`: keypad flags (R4, R31). -/
@[simp] abbrev nKeys : Nat := 16

/-- `ROM_BASE`: address of ROM byte 0 and reset value of `pc` (R4, R242). -/
@[simp] abbrev romBase : Nat := 0x200

/-- `ROM_MAX`: the longest ROM `load()` accepts (R4, R204). -/
@[simp] abbrev romMax : Nat := 0xE00

/-- `GLYPH_BYTES`: bytes per font glyph (R4, R24). -/
@[simp] abbrev glyphBytes : Nat := 5

/-- The values of the OPEN parameter BNNN_MODE (R4, R104, D12). -/
inductive BnnnMode where
  /-- `unrecognized`: a word 0xBNNN is a warned no-op (DOC00's table as it stands). -/
  | unrecognized
  /-- `jump_v0`: a word 0xBNNN jumps to `nnn + V[0]` (the spec takes this meaning from general knowledge). -/
  | jumpV0
  deriving DecidableEq, Repr

/-- FREE VALUE (log 3). The `k`-th draw of the random source when the environment has supplied none in advance: any byte
(R132 "No law binds the draws"). It has no body, so no proof can see a value of it. -/
opaque freeDraw : Nat → Byte

end Sys2Proof.Config
end

