-- ==== Sys2Proof/Machine/Params.lean ====
section
/-! DEFINITION. The two parameters of spec 00_scope.md R4 whose default the spec supplies itself: the font table FONT and the
value of BNNN_MODE after reset; and the reset contents of memory, which are what an unlisted address reads as. -/

namespace Sys2Proof.Machine

/-- FONT, the 80 bytes of R24, glyphs 0 to F of five rows each. Glyph 0 is the source's; 1 to F are PRESUMED by the spec
(D16, log 5). -/
def font : List Byte :=
  [0xF0, 0x90, 0x90, 0x90, 0xF0,  0x20, 0x60, 0x20, 0x20, 0x70,  0xF0, 0x10, 0xF0, 0x80, 0xF0,  0xF0, 0x10, 0xF0, 0x10, 0xF0] ++
  [0x90, 0x90, 0xF0, 0x10, 0x10,  0xF0, 0x80, 0xF0, 0x10, 0xF0,  0xF0, 0x80, 0xF0, 0x90, 0xF0,  0xF0, 0x10, 0x20, 0x40, 0x40] ++
  [0xF0, 0x90, 0xF0, 0x90, 0xF0,  0xF0, 0x90, 0xF0, 0x10, 0xF0,  0xF0, 0x90, 0xF0, 0x90, 0x90,  0xE0, 0x90, 0xE0, 0x90, 0xE0] ++
  [0xF0, 0x80, 0x80, 0x80, 0xF0,  0xE0, 0x90, 0x90, 0x90, 0xE0,  0xF0, 0x80, 0xF0, 0x80, 0xF0,  0xF0, 0x80, 0xF0, 0x80, 0x80]

/-- `mem[a]` after reset: the font in 0x000 to 0x04F, 0x00 everywhere else (R23, R35, R240). -/
def resetByte (a : Nat) : Byte := font.getD a 0x00#8

/-- BNNN_MODE in the reset state: the spec's default `unrecognized` (R4, D12; DESIGN CHOICE, log 4). -/
def bnnnModeAtReset : Config.BnnnMode := .unrecognized

end Sys2Proof.Machine
end

