-- ==== Sys2Proof/Machine/State.lean ====
section
/-! DEFINITION. The state of CORE as plain data (spec 10_state.md R20 to R37), the reasons a step can stop, and the state after reset. -/

namespace Sys2Proof.Machine

/-- Memory as the cells that differ from the reset contents, addresses strictly rising (`Memory.wf`). -/
abbrev Memory := List Host.Cell

/-- The framebuffer, 32 rows of 64 one-bit columns: cell `k = col + 64 * row` is bit `col` of row `row`, the index
`{row[4:0], col[5:0]}` of R30. -/
abbrev Frame := Vector (BitVec 64) 32

/-- `FAULT.kind` (R33, R200); the 3-bit code is `FaultKind.code`. -/
inductive FaultKind where
  /-- 0: no fault since reset. -/
  | none
  /-- 1: memory access outside 0..4095 (R201). -/
  | addressOutOfBounds
  /-- 2: 00EE on an empty stack (R202). -/
  | stackUnderflow
  /-- 3: 2NNN on a full stack (R203). -/
  | stackOverflow
  /-- 4: `load()` of more than 0xE00 bytes (R204). -/
  | romTooLarge
  deriving DecidableEq, Repr

/-- The fault latch FAULT (R33, D1). -/
structure FaultLatch where
  kind : FaultKind
  addr : Word
  deriving DecidableEq, Repr

/-- The operations of CORE's interface (R9, R12), each atomic (R10). -/
inductive Op where
  /-- `reset()` (R240). -/
  | reset
  /-- `load(rom)` (R242). -/
  | load (rom : List Byte)
  /-- `step()` (R11). -/
  | step
  /-- `tickTimers()` (R220). -/
  | tickTimers
  /-- `setKey(k, b)` (R31). -/
  | setKey (k : Fin 16) (pressed : Bool)
  deriving DecidableEq, Repr

/-- The state. The first eleven fields are the whole of R20; the last six are the model's own (INVENTORY.md, State). -/
structure State where
  /-- Memory (R23). -/
  mem : Memory
  /-- The general registers V0..VF (R21, R22). -/
  V : Vector Byte 16
  /-- The index register (R26). -/
  I : Word
  /-- The program counter (R25). -/
  pc : Word
  /-- The call stack cells (R27). -/
  STACK : Vector Word 16
  /-- The stack pointer, the number of saved addresses (R27). -/
  SP : Fin 17
  /-- The delay timer (R28). -/
  DT : Byte
  /-- The sound timer (R29). -/
  ST : Byte
  /-- The framebuffer (R30). -/
  FB : Frame
  /-- The keypad; key `k` is bit `k`, 1 is pressed (R31). -/
  KEY : BitVec 16
  /-- The fault latch (R33). -/
  FAULT : FaultLatch
  /-- The parameter BNNN_MODE (R4, R104), which no operation changes (log 4). -/
  bnnnMode : Config.BnnnMode
  /-- The schedule (R36): operations still to be applied, oldest first; empty means the driver calls `step()` (log 2). -/
  agenda : List Op
  /-- Draws the environment has supplied and CXNN has not consumed, oldest first (R132, log 3). -/
  drawQueue : List Byte
  /-- How many draws CXNN has consumed; the argument of `Config.freeDraw` (log 3). -/
  drawCount : Nat
  /-- The `warn(op)` events emitted, newest first (R212, log 6). -/
  warnings : List Word
  /-- No operation since the last `reset()` but ticks and key writes that changed nothing: the history R242 makes the precondition of
  `load()`. No instruction reads it (log 9). -/
  untouched : Bool
  deriving DecidableEq, Repr

/-- The reasons the machine could stop with a host-level fault. There is none: each of the four faults of R200 is a NEXT state with
the latch FAULT set (R205, log 1), so nothing raises a member of this type. -/
inductive Fault : Type where
  deriving DecidableEq, Repr

/-- The reasons an operation has no meaning. -/
inductive Refusal where
  /-- An instruction not modelled yet, raised by `exec`'s arm for it (safe). No arm raises it in this model. -/
  | notModelled (mnemonic : String)
  /-- `load()` on a state that is not fresh, raised by `loadOp` (R242 "a model should refuse it", U4, log 9). Safe: the run stops. -/
  | loadOnUsedState
  deriving DecidableEq, Repr

/-- What an operation answers. -/
abbrev Result := Host.Outcome State Fault Refusal

/-- The state right after `reset()` (R35, R240); the model's own fields at the values of logs 2, 3, 4, 6 and 9. -/
def State.reset : State where
  mem := []
  V := Vector.replicate 16 0x00#8
  I := 0x0000#16
  pc := 0x0200#16
  STACK := Vector.replicate 16 0x0000#16
  SP := 0
  DT := 0x00#8
  ST := 0x00#8
  FB := Vector.replicate 32 0#64
  KEY := 0#16
  FAULT := { kind := .none, addr := 0x0000#16 }
  bnnnMode := bnnnModeAtReset
  agenda := []
  drawQueue := []
  drawCount := 0
  warnings := []
  untouched := true

end Sys2Proof.Machine
end

