-- ==== Sys2Proof/Machine/Memory.lean ====
section
/-! DEFINITION. The memory array `mem` of spec 10_state.md R23 over its canonical list of cells: reading and writing one cell and a
run of cells. Range checks stand in Ops.lean (spec 20_memory.md R51 to R54). -/

namespace Sys2Proof.Machine

/-- `mem[a]`: the listed byte, else the reset contents (R23). -/
def Memory.read : Memory → Nat → Byte
  | [], a => resetByte a
  | (k, b) :: m, a => if k = a then b else Memory.read m a

/-- `mem[a] <- v`, keeping addresses rising and no cell equal to its reset contents (R53 "A write changes exactly one cell"). -/
def Memory.write : Memory → Nat → Byte → Memory
  | [], a, v => if v = resetByte a then [] else [(a, v)]
  | (k, b) :: m, a, v =>
    if a < k then (if v = resetByte a then (k, b) :: m else (a, v) :: (k, b) :: m)
    else if a = k then (if v = resetByte a then m else (a, v) :: m)
    else (k, b) :: Memory.write m a v

/-- The bytes of a run of `n` cells from `a`, ascending (R56). -/
def Memory.readRun (m : Memory) (a : Nat) : Nat → List Byte
  | 0 => []
  | n + 1 => m.read a :: Memory.readRun m (a + 1) n

/-- Write a run of bytes from `a`, ascending (R56). -/
def Memory.writeRun (m : Memory) (a : Nat) : List Byte → Memory
  | [] => m
  | b :: bs => Memory.writeRun (m.write a b) (a + 1) bs

/-- The canonical form: addresses strictly rising and inside the address space, no cell equal to its reset contents. -/
abbrev Memory.wf (m : Memory) : Prop :=
  m.Pairwise (fun c d => c.1 < d.1) ∧ ∀ c ∈ m, c.1 < 4096 ∧ c.2 ≠ resetByte c.1

end Sys2Proof.Machine
end

