-- ==== Sys2Proof/Machine/Ops.lean ====
section
/-! DEFINITION. The named operations over the state: registers, the program counter, checked memory access, the call stack, the fault
latch (taking a fault and the reset that ends it), warnings, draws, the pixel and key bits, and the operations of CORE's interface
(spec 00_scope.md R8, R12). -/

namespace Sys2Proof.Machine

/-! ### Registers and the program counter -/

/-- `V[r]` (R8, R21). -/
def State.reg (s : State) (r : Reg) : Byte := s.V[r]

/-- `V[r] <- v` (R8, R21). -/
def State.writeReg (s : State) (r : Reg) (v : Byte) : State := { s with V := s.V.set r v }

/-- `pc <- v` (R8, R25). -/
def State.setPc (s : State) (v : Word) : State := { s with pc := v }

/-- `pc <- pc + 2` (R25). -/
def State.advance (s : State) : State := { s with pc := s.pc + 2#16 }

/-- `pc <- pc + 4` if the condition holds, else `pc <- pc + 2` (R25, R126). -/
def State.skipIf (s : State) (c : Bool) : State := { s with pc := s.pc + (if c then 4#16 else 2#16) }

/-- `I <- v` (R8, R26). -/
def State.setI (s : State) (v : Word) : State := { s with I := v }

/-- `DT <- v` (R8, R28). -/
def State.setDT (s : State) (v : Byte) : State := { s with DT := v }

/-- `ST <- v` (R8, R29). -/
def State.setST (s : State) (v : Byte) : State := { s with ST := v }

/-- `FB <- v` (R8, R30). -/
def State.setFB (s : State) (v : Frame) : State := { s with FB := v }

/-- `mem <- m`, used by the memory operations below only. -/
def State.setMem (s : State) (m : Memory) : State := { s with mem := m }

/-! ### Pixels and keys -/

/-- Cell `k` of a framebuffer, `0 <= k <= 2047`: column `k mod 64` of row `k / 64` (R30); there is no cell above 2047. -/
def Frame.cell (fb : Frame) (k : Nat) : Bool :=
  if h : k / 64 < 32 then fb[k / 64].getLsbD (k % 64) else false

/-- The framebuffer with cell `k` flipped, every other cell as it was (R161 `FB[k] <- FB[k] ^ 1`). -/
def Frame.flip (fb : Frame) (k : Nat) : Frame :=
  if h : k / 64 < 32 then fb.set (k / 64) (fb[k / 64] ^^^ BitVec.twoPow 64 (k % 64)) h else fb

/-- Every cell 0 (R35, R160). -/
def Frame.clear : Frame := Vector.replicate 32 0#64

/-- `FB[k]` (R8, R30). -/
def State.pixel (s : State) (k : Nat) : Bool := Frame.cell s.FB k

/-- `KEY[k] == 1`; a key above 15 reads as not pressed (R124, D14, log 22). -/
def State.pressed (s : State) (k : Nat) : Bool := s.KEY.getLsbD k

/-! ### Faults -/

/-- The 3-bit code of `FAULT.kind` (R33, R200; D1, log 1). -/
def FaultKind.code : FaultKind → BitVec 3
  | .none => 0
  | .addressOutOfBounds => 1
  | .stackUnderflow => 2
  | .stackOverflow => 3
  | .romTooLarge => 4

/-- Fault entry, `raise K(a)` (R205): the latch is set and nothing else changes; `pc` stays (D1, log 1). What ends a fault is
`State.resetOp` alone (R207): the machine has no return from one. -/
def State.raise (s : State) (kind : FaultKind) (a : Nat) : State :=
  { s with FAULT := { kind := kind, addr := if kind = .addressOutOfBounds then BitVec.ofNat 16 a else 0x0000#16 } }

/-- The latch is set (R207). -/
def State.faulted (s : State) : Bool := s.FAULT.kind != .none

/-- `warn(op)`: emit the event; changes no state of the machine (R212, log 6). -/
def State.warn (s : State) (op : Word) : State := { s with warnings := op :: s.warnings }

/-! ### Checked memory access -/

/-- Some address of the run of `n` bytes from `a` is above 4095; an empty run reaches nothing (R54). -/
def outOfRange (a n : Nat) : Bool := decide (0 < n ∧ Config.memSize < a + n)

/-- The lowest address of a run from `a` that is above 4095 (R54, R201 `max(I, 4096)`). -/
def offendingAddress (a : Nat) : Nat := max a Config.memSize

/-- Read `n` bytes from `a`, ascending; nothing is read unless every address exists (R52, R54; D6, log 16). -/
def State.readBytes (s : State) (a n : Nat) : Option (List Byte) :=
  if outOfRange a n then none else some (s.mem.readRun a n)

/-- Write bytes from `a`, ascending; nothing is written unless every address exists (R53, R54; D6, log 16). -/
def State.writeBytes (s : State) (a : Nat) (bs : List Byte) : Option State :=
  if outOfRange a bs.length then none else some (s.setMem (s.mem.writeRun a bs))

/-- The instruction fetch `MemRead(pc, 2)`, big-endian; none when `pc + 1 >= 4096` (R51, R57). It changes no state. -/
def State.fetch (s : State) : Option Word :=
  if Config.memSize ≤ s.pc.toNat + 1 then none
  else some (wordOfBytes (s.mem.read s.pc.toNat) (s.mem.read (s.pc.toNat + 1)))

/-! ### The call stack -/

/-- Push `v`; none when 16 addresses are already saved (R27, R103; D3, log 14). -/
def State.push (s : State) (v : Word) : Option State :=
  if h : s.SP.val < 16 then
    some { s with STACK := s.STACK.set s.SP.val v h, SP := ⟨s.SP.val + 1, Nat.succ_lt_succ h⟩ }
  else none

/-- Pop: the value and the state with `SP` one lower, the cell not cleared; none on an empty stack (R27, R101; D2, log 15). -/
def State.pop (s : State) : Option (Word × State) :=
  match s.SP with
  | ⟨0, _⟩ => none
  | ⟨k + 1, h⟩ => some (s.STACK[k]'(Nat.lt_of_succ_lt_succ h), { s with SP := ⟨k, Nat.lt_of_succ_lt h⟩ })

/-! ### The random source -/

/-- The next draw: the oldest supplied byte, else the free value (R132, log 3). -/
def State.nextDraw (s : State) : Byte := s.drawQueue.headD (Config.freeDraw s.drawCount)

/-- The state after one draw is consumed (R132, log 3). -/
def State.consumeDraw (s : State) : State := { s with drawQueue := s.drawQueue.tail, drawCount := s.drawCount + 1 }

/-! ### The other operations of the interface -/

/-- An operation has been done since the last `reset()` (R242, log 9). -/
def State.touch (s : State) : State := { s with untouched := false }

/-- `tickTimers()`: each timer one lower, floored at zero; nothing else (R220). A tick that changes nothing keeps a fresh state fresh
(R242). -/
def State.tickTimers (s : State) : State :=
  { s with
    DT := if s.DT = 0x00#8 then s.DT else s.DT - 1#8
    ST := if s.ST = 0x00#8 then s.ST else s.ST - 1#8
    untouched := s.untouched && s.DT == 0x00#8 && s.ST == 0x00#8 }

/-- `setKey(k, b)`: `KEY[k] <- b` and nothing else (R31). A write that changes nothing keeps a fresh state fresh (R242). -/
def State.setKey (s : State) (k : Fin 16) (b : Bool) : State :=
  { s with
    KEY := if b then s.KEY ||| BitVec.twoPow 16 k else s.KEY &&& ~~~ BitVec.twoPow 16 k
    untouched := s.untouched && s.pressed k == b }

/-- `reset()`, from any state (R240). The model's own fields, which are the environment's and no state of R20, are kept, but for the mark
that nothing has been done since, which is set (log 7). -/
def State.resetOp (s : State) : State :=
  { State.reset with
    bnnnMode := s.bnnnMode
    agenda := s.agenda
    drawQueue := s.drawQueue
    drawCount := s.drawCount
    warnings := s.warnings }

/-- The state is exactly what `reset()` leaves, with no operation since that changed it (R242, log 9): `resetOp` sets `untouched`. -/
def State.fresh (s : State) : Bool := decide (s = s.resetOp)

/-- `load(rom)` (R242): refused off a fresh state; `RomTooLarge` and nothing copied above 0xE00 bytes (R204); else the bytes go to
0x200 and up. Either way the state is fresh no more, also after an empty ROM. -/
def loadOp (rom : List Byte) (s : State) : Result :=
  if s.fresh then
    if Config.romMax < rom.length then .next (s.touch.raise .romTooLarge 0)
    else .next (s.touch.setMem (s.mem.writeRun Config.romBase rom))
  else .refused .loadOnUsedState

end Sys2Proof.Machine
end

