-- ==== Sys2Proof/Machine/Operands.lean ====
section
/-! DEFINITION. The operand forms (spec 30_encoding.md R72, 46_index_memory.md R186): immediates brought to 16 bits, the register block
V0..Vx, the sprite's pixel addresses, the decimal digits, the font address, the lowest pressed key. -/

namespace Sys2Proof.Machine

/-- `zext_16(nnn)` (R7, R72). -/
def address12 (nnn : BitVec 12) : Word := nnn.setWidth 16

/-- `zext_16(V[r])` (R7, R72). -/
def State.regWord (s : State) (r : Reg) : Word := (s.reg r).setWidth 16

/-- The values of V0..Vx, ascending: `x + 1` bytes (R184). -/
def State.regBlock (s : State) (x : Reg) : List Byte := s.V.toList.take (x.val + 1)

/-- Registers from number `k` up take the given bytes (R185); bytes past VF go nowhere, and no instruction supplies any. -/
def writeBlock (V : Vector Byte 16) (k : Nat) : List Byte → Vector Byte 16
  | [] => V
  | b :: bs => writeBlock (V.setIfInBounds k b) (k + 1) bs

/-- V0, V1, ... take the given bytes (R185). -/
def State.writeRegBlock (s : State) (bs : List Byte) : State := { s with V := writeBlock s.V 0 bs }

/-- `fbaddr(px, py)` (R162). -/
def fbaddr (px py : Nat) : Nat := px % Config.fbCols + py % Config.fbRows * Config.fbCols

/-- One sprite bit, set, lands on cell `k`: the cell is flipped, and flipping a set cell is a collision (R161). -/
def flipCell (acc : Frame × Bool) (k : Nat) : Frame × Bool :=
  (Frame.flip acc.1 k, acc.2 || Frame.cell acc.1 k)

/-- One sprite row `b` at (`vx`, `py`): bit `7 - col` is column `col` (R161; D15, log 23). -/
def drawRow (vx py : Nat) (b : Byte) (acc : Frame × Bool) : Frame × Bool :=
  (List.range 8).foldl (fun a col => if b.getLsbD (7 - col) then flipCell a (fbaddr (vx + col) py) else a) acc

/-- The sprite rows downward from `py` (R161; D15, log 23). -/
def drawRows (vx : Nat) : Nat → List Byte → Frame × Bool → Frame × Bool
  | _, [], acc => acc
  | py, b :: rows, acc => drawRows vx (py + 1) rows (drawRow vx py b acc)

/-- The framebuffer after drawing the rows at (`vx`, `vy`), and whether any cell went from 1 to 0 (R161). -/
def drawSprite (fb : Frame) (vx vy : Nat) (rows : List Byte) : Frame × Bool :=
  drawRows vx vy rows (fb, false)

/-- Hundreds, tens and ones of a byte, each a whole byte (R183). -/
def bcdDigits (v : Byte) : List Byte :=
  [BitVec.ofNat 8 (v.toNat / 100), BitVec.ofNat 8 (v.toNat / 10 % 10), BitVec.ofNat 8 (v.toNat % 10)]

/-- The font glyph address of the low nibble of `v` (R182). -/
def glyphAddress (v : Byte) : Word := BitVec.ofNat 16 ((v &&& 0x0F#8).toNat * Config.glyphBytes)

/-- The lowest-numbered pressed key (R171 "scan keys 0..15 in ascending order"). -/
def State.lowestKey (s : State) : Option Nat := (List.range Config.nKeys).find? (fun k => s.pressed k)

end Sys2Proof.Machine
end

