-- ==== Sys2Proof/Machine/Flags.lean ====
section
/-! DEFINITION. The flag computations (spec 43_alu.md R149, R150): each gives the 8-bit result and the flag; the flag goes to VF after
the result (D8, log 17). -/

namespace Sys2Proof.Machine

/-- A flag as VF holds it: 0x01 or 0x00 (R22). -/
def flagByte (f : Bool) : Byte := if f then 0x01#8 else 0x00#8

/-- Sum mod 256, and the carry: the exact sum exceeds 255 (R144, R150). -/
def addCarry (a b : Byte) : Byte × Bool := (BitVec.ofNat 8 (a.toNat + b.toNat), decide (255 < a.toNat + b.toNat))

/-- Difference mod 256, and NOT borrow: minuend at least subtrahend (R145, R150; D10, log 19). -/
def subNotBorrow (a b : Byte) : Byte × Bool := (a - b, decide (b.toNat ≤ a.toNat))

/-- Right shift by one, and the bit shifted out (R146, R150). -/
def shiftRight (a : Byte) : Byte × Bool := (a >>> 1, a.getLsbD 0)

/-- Left shift by one mod 256, and the bit shifted out (R148, R150). -/
def shiftLeft (a : Byte) : Byte × Bool := (a <<< 1, a.getLsbD 7)

/-- `V[x] <-` the result, then `VF <-` the flag, then `pc <- pc + 2` (R149). -/
def State.writeWithFlag (s : State) (x : Reg) (rf : Byte × Bool) : State :=
  ((s.writeReg x rf.1).writeReg VF (flagByte rf.2)).advance

end Sys2Proof.Machine
end

