-- ==== Sys2Proof/Machine/Alu.lean ====
section
/-! DEFINITION. The register-register ALU instructions, family 0x8 (spec 43_alu.md R140 to R150). -/

namespace Sys2Proof.Machine

/-- LD Vx, Vy (R140): no flag (D7, log 18). -/
def execLdReg (x y : Reg) (s : State) : Result := .next (s.writeReg x (s.reg y)).advance

/-- OR Vx, Vy (R141): no flag (D7, log 18). -/
def execOrReg (x y : Reg) (s : State) : Result := .next (s.writeReg x (s.reg x ||| s.reg y)).advance

/-- AND Vx, Vy (R142): no flag (D7, log 18). -/
def execAndReg (x y : Reg) (s : State) : Result := .next (s.writeReg x (s.reg x &&& s.reg y)).advance

/-- XOR Vx, Vy (R143): no flag (D7, log 18). -/
def execXorReg (x y : Reg) (s : State) : Result := .next (s.writeReg x (s.reg x ^^^ s.reg y)).advance

/-- ADD Vx, Vy (R144): VF is the carry. -/
def execAddReg (x y : Reg) (s : State) : Result := .next (s.writeWithFlag x (addCarry (s.reg x) (s.reg y)))

/-- SUB Vx, Vy (R145): VF is NOT borrow. -/
def execSubReg (x y : Reg) (s : State) : Result := .next (s.writeWithFlag x (subNotBorrow (s.reg x) (s.reg y)))

/-- SHR Vx (R146): `V[x]` in place (D9, log 20), VF is the old bit 0. -/
def execShr (x : Reg) (s : State) : Result := .next (s.writeWithFlag x (shiftRight (s.reg x)))

/-- SUBN Vx, Vy (R147): the operands of SUB exchanged, VF is NOT borrow. -/
def execSubnReg (x y : Reg) (s : State) : Result := .next (s.writeWithFlag x (subNotBorrow (s.reg y) (s.reg x)))

/-- SHL Vx (R148): `V[x]` in place (D9, log 20), VF is the old bit 7. -/
def execShl (x : Reg) (s : State) : Result := .next (s.writeWithFlag x (shiftLeft (s.reg x)))

end Sys2Proof.Machine
end

