-- ==== Sys2Proof/Machine/Display.lean ====
section
/-! DEFINITION. The display instructions (spec 44_display.md R160 to R162). -/

namespace Sys2Proof.Machine

/-- CLS (R160): every cell 0; VF is not written. -/
def execCls (s : State) : Result := .next (s.setFB Frame.clear).advance

/-- DRW Vx, Vy, n (R161): the coordinates are read before VF is written (D27, log 24), the range is checked before the first
pixel (D6, log 16), VF is the collision, written last. -/
def execDrw (x y : Reg) (n : BitVec 4) (s : State) : Result :=
  match s.readBytes s.I.toNat n.toNat with
  | none => .next (s.raise .addressOutOfBounds (offendingAddress s.I.toNat))
  | some rows =>
    let drawn := drawSprite s.FB (s.reg x).toNat (s.reg y).toNat rows
    .next ((s.setFB drawn.1).writeReg VF (flagByte drawn.2)).advance

end Sys2Proof.Machine
end

