-- ==== Sys2Proof/Machine/Flow.lean ====
section
/-! DEFINITION. Control transfer and the unrecognized word (spec 40_flow_control.md R100 to R106). -/

namespace Sys2Proof.Machine

/-- SYS nnn (R100): warn, `pc + 2`. -/
def execSys (nnn : BitVec 12) (s : State) : Result := .next (s.warn (encode (.sys nnn))).advance

/-- RET (R101): pop, land two past the popped address; `StackUnderflow` on an empty stack (D2, log 15). -/
def execRet (s : State) : Result :=
  match s.pop with
  | none => .next (s.raise .stackUnderflow 0)
  | some (v, s') => .next (s'.setPc (v + 2#16))

/-- JP nnn (R102). -/
def execJp (nnn : BitVec 12) (s : State) : Result := .next (s.setPc (address12 nnn))

/-- CALL nnn (R103): push this instruction's own address, jump; `StackOverflow` when 16 are saved. -/
def execCall (nnn : BitVec 12) (s : State) : Result :=
  match s.push s.pc with
  | none => .next (s.raise .stackOverflow 0)
  | some s' => .next (s'.setPc (address12 nnn))

/-- JP V0, nnn (R104): by BNNN_MODE a warned no-op or the jump to `nnn + V[0]` (log 4). -/
def execJpV0 (nnn : BitVec 12) (s : State) : Result :=
  match s.bnnnMode with
  | .unrecognized => .next (s.warn (encode (.jpV0 nnn))).advance
  | .jumpV0 => .next (s.setPc (address12 nnn + s.regWord 0))

/-- An unrecognized word (R105): warn, `pc + 2`. -/
def execUnrecognized (op : Word) (s : State) : Result := .next (s.warn op).advance

end Sys2Proof.Machine
end

