-- ==== Sys2Proof/Machine/Immediate.lean ====
section
/-! DEFINITION. Register-immediate instructions and the random instruction (spec 42_immediate_random.md R130 to R133). -/

namespace Sys2Proof.Machine

/-- LD Vx, nn (R130). -/
def execLdImm (x : Reg) (nn : Byte) (s : State) : Result := .next (s.writeReg x nn).advance

/-- ADD Vx, nn (R131): the sum mod 256, no flag. -/
def execAddImm (x : Reg) (nn : Byte) (s : State) : Result := .next (s.writeReg x (s.reg x + nn)).advance

/-- RND Vx, nn (R133): one draw, masked; the draw is consumed whatever the mask (R132, log 3). -/
def execRnd (x : Reg) (nn : Byte) (s : State) : Result := .next (s.consumeDraw.writeReg x (s.nextDraw &&& nn)).advance

end Sys2Proof.Machine
end

