-- ==== Sys2Proof/Machine/IndexMemory.lean ====
section
/-! DEFINITION. Index register and memory instructions (spec 46_index_memory.md R180 to R186). -/

namespace Sys2Proof.Machine

/-- LD I, nnn (R180). -/
def execLdI (nnn : BitVec 12) (s : State) : Result := .next (s.setI (address12 nnn)).advance

/-- ADD I, Vx (R181): modulo 65536, no flag (D4, log 12). -/
def execAddI (x : Reg) (s : State) : Result := .next (s.setI (s.I + s.regWord x)).advance

/-- LD F, Vx (R182). -/
def execLdF (x : Reg) (s : State) : Result := .next (s.setI (glyphAddress (s.reg x))).advance

/-- LD B, Vx (R183): three digits at `I`, checked before any write (D6, log 16). -/
def execLdB (x : Reg) (s : State) : Result :=
  match s.writeBytes s.I.toNat (bcdDigits (s.reg x)) with
  | none => .next (s.raise .addressOutOfBounds (offendingAddress s.I.toNat))
  | some s' => .next s'.advance

/-- LD [I], Vx (R184): V0..Vx to memory, `I` unchanged (D11, log 28), checked before any write. -/
def execStoreRegs (x : Reg) (s : State) : Result :=
  match s.writeBytes s.I.toNat (s.regBlock x) with
  | none => .next (s.raise .addressOutOfBounds (offendingAddress s.I.toNat))
  | some s' => .next s'.advance

/-- LD Vx, [I] (R185): V0..Vx from memory, `I` unchanged (D11, log 28), checked before any write. -/
def execLoadRegs (x : Reg) (s : State) : Result :=
  match s.readBytes s.I.toNat (x.val + 1) with
  | none => .next (s.raise .addressOutOfBounds (offendingAddress s.I.toNat))
  | some bs => .next (s.writeRegBlock bs).advance

end Sys2Proof.Machine
end

