-- ==== Sys2Proof/Machine/TimerKey.lean ====
section
/-! DEFINITION. Timer access and key wait (spec 45_timer_key.md R170 to R173). -/

namespace Sys2Proof.Machine

/-- LD Vx, DT (R170; D17, log 25). -/
def execLdVxDt (x : Reg) (s : State) : Result := .next (s.writeReg x s.DT).advance

/-- LD Vx, K (R171): the lowest pressed key; with none pressed nothing changes and `pc` stays (level-sensitive, D28, log 29). -/
def execLdVxK (x : Reg) (s : State) : Result :=
  match s.lowestKey with
  | none => .next s
  | some k => .next (s.writeReg x (BitVec.ofNat 8 k)).advance

/-- LD DT, Vx (R172; D17, log 25). -/
def execLdDtVx (x : Reg) (s : State) : Result := .next (s.setDT (s.reg x)).advance

/-- LD ST, Vx (R173; D17, log 25). -/
def execLdStVx (x : Reg) (s : State) : Result := .next (s.setST (s.reg x)).advance

end Sys2Proof.Machine
end

