-- ==== Sys2Proof/Machine/Cycle.lean ====
section
/-! DEFINITION. The instruction cycle `step()` and the interface of CORE as one function of an operation and a state
(spec 00_scope.md R9 to R12), the schedule, and the placing of a word where the next step fetches it. -/

namespace Sys2Proof.Machine

/-- `step()` (R11): nothing while the latch is set (R207, D23, log 30); else one fetch, decode and execute. A fetch fault records `pc`
(R51, D1). It adds nothing to `pc` itself; before it executes it marks the state as no longer fresh (R242, log 9). -/
def coreStep (s : State) : Result :=
  if s.faulted then .next s
  else
    match s.fetch with
    | none => .next (s.touch.raise .addressOutOfBounds s.pc.toNat)
    | some op => exec (decodeWord op) s.touch

/-- One operation of the interface (R9, R12). Ticks and keys act whether or not the latch is set (R207). -/
def applyOp : Op → State → Result
  | .reset, s => .next s.resetOp
  | .load rom, s => loadOp rom s
  | .step, s => coreStep s
  | .tickTimers, s => .next s.tickTimers
  | .setKey k b, s => .next (s.setKey k b)

/-- The next operation of the schedule: the oldest of the agenda, taken off it; with an empty agenda, `step()` (log 2). -/
def scheduledStep (s : State) : Result :=
  match s.agenda with
  | [] => coreStep s
  | op :: rest => applyOp op { s with agenda := rest }

/-- Put `op` at `pc`, high byte first (R57), with the agenda empty, no fault latched, the state no longer fresh (a program has been loaded)
and, where nothing can be fetched at `pc`, `pc` at ROM_BASE: what the next `scheduledStep` needs to run exactly `op` (log 10). -/
def State.placeWord (s : State) (op : Word) : State :=
  let at' : Word := if Config.memSize ≤ s.pc.toNat + 1 then BitVec.ofNat 16 Config.romBase else s.pc
  { s with
    mem := s.mem.writeRun at'.toNat [highByte op, lowByte op]
    pc := at'
    FAULT := { kind := .none, addr := 0x0000#16 }
    agenda := []
    untouched := false }

end Sys2Proof.Machine
end

