-- ==== Sys2Proof/Machine/Step.lean ====
section
/-! DEFINITION. The step of the machine and the state whose next step runs a given word. -/

namespace Sys2Proof.Machine

/-- One step: the next operation of the schedule. -/
def step (s : State) : Host.Outcome State Fault Refusal := scheduledStep s

/-- `s` with the table word `w` (bits at and above `nbits` are 0) stored where `step` fetches its next instruction (log 10). -/
def State.withFetchWord (s : State) (nbits w : Nat) : State := s.placeWord (BitVec.ofNat 16 (w % 2 ^ nbits))

end Sys2Proof.Machine
end

