-- ==== Sys2Proof/Safety.lean ====
section
/-! DEFINITION. What claims use to say a state or a run is good: the invariants of spec 10_state.md R37 and runs without a fault
(spec 60_exceptions.md R207). -/

namespace Sys2Proof.Machine

/-- The largest `pc` a run can reach: 0x1002, or 0x10FE when BNNN jumps (R37 (b)). -/
def pcBound : Config.BnnnMode → Nat
  | .unrecognized => 0x1002
  | .jumpV0 => 0x10FE

/-- The invariants of R37 that are not true by the fields' types, and what the latch can hold (R33, R201). -/
structure State.Inv (s : State) : Prop where
  /-- Memory is in canonical form. -/
  mem_wf : s.mem.wf
  /-- R37 (b). -/
  pc_bound : s.pc.toNat ≤ pcBound s.bnnnMode
  /-- R37 (c): a saved entry is an address at which a fetch succeeded. -/
  stack_bound : ∀ k (h : k < 16), k < s.SP.val → s.STACK[k].toNat ≤ 0xFFE
  /-- R33: the address is 0 but for an address fault. -/
  addr_zero : s.FAULT.kind ≠ .addressOutOfBounds → s.FAULT.addr = 0x0000#16
  /-- R201: the recorded address is 0xFFF (a fetch) or outside memory. -/
  addr_bound : s.FAULT.kind = .addressOutOfBounds → 0xFFF ≤ s.FAULT.addr.toNat
  /-- R242: a state in which nothing has been done since `reset()` is the one it leaves. -/
  untouched_fresh : s.untouched = true → s = s.resetOp

/-- `n` steps from a state, stopping at the first one that answers no next state. -/
def run : Nat → State → Result
  | 0, s => .next s
  | n + 1, s =>
    match step s with
    | .next t => run n t
    | .fault r => .fault r
    | .refused r => .refused r

/-- A run of `n` steps from `s` that stops nowhere and in which the latch stays clear: "a run that has faulted is not a completed
run" (R207). -/
def SafeFor : Nat → State → Prop
  | 0, s => s.FAULT.kind = .none
  | n + 1, s => s.FAULT.kind = .none ∧ ∃ t, step s = .next t ∧ SafeFor n t

end Sys2Proof.Machine
end

