-- ==== Sys2Proof/Certificates/Slice0/Obligations.lean ====
section
/-! DEFINITION. The statements for the provers. Each docstring names the rule or section of spec/ it formalises, and the decision
(D<n> of spec/92_eei_decisions.md) or log entry (log <n>, notes/assumptions/<n>.md) a clause rests on where the spec or the model
chose. The words of an encoding are written out as hex digits, not by the model's encoder. -/

namespace Sys2Proof.Claims

open Sys2Proof.Machine

/-- The word of four hex digits, most significant first (R5). -/
def hex4 (a b c d : Nat) : Word := BitVec.ofNat 16 (a * 0x1000 + b * 0x100 + c * 0x10 + d)

/-- The word of two hex digits and a byte (R5). -/
def hex2Byte (a b nn : Nat) : Word := BitVec.ofNat 16 (a * 0x1000 + b * 0x100 + nn)

/-- The word of one hex digit and a 12-bit number (R5). -/
def hexAddr (a nnn : Nat) : Word := BitVec.ofNat 16 (a * 0x1000 + nnn)

/-- The parts of the state a frame speaks of. -/
inductive Part where
  | registers | index | pc | stack | memory | delayTimer | soundTimer | display | keypad | latch | draws | warnings | agenda | freshness
  deriving DecidableEq, Repr

/-- Every part of the state but those named is the same in both states; memory is compared by reading every byte. -/
structure Unchanged (changed : List Part) (s t : State) : Prop where
  registers : Part.registers ∉ changed → ∀ r, t.reg r = s.reg r
  index : Part.index ∉ changed → t.I = s.I
  pc : Part.pc ∉ changed → t.pc = s.pc
  stack : Part.stack ∉ changed → t.SP = s.SP ∧ t.STACK = s.STACK
  memory : Part.memory ∉ changed → ∀ a, t.mem.read a = s.mem.read a
  delayTimer : Part.delayTimer ∉ changed → t.DT = s.DT
  soundTimer : Part.soundTimer ∉ changed → t.ST = s.ST
  display : Part.display ∉ changed → ∀ k, t.pixel k = s.pixel k
  keypad : Part.keypad ∉ changed → t.KEY = s.KEY
  latch : Part.latch ∉ changed → t.FAULT = s.FAULT
  draws : Part.draws ∉ changed → t.drawQueue = s.drawQueue ∧ t.drawCount = s.drawCount
  warnings : Part.warnings ∉ changed → t.warnings = s.warnings
  agenda : Part.agenda ∉ changed → t.agenda = s.agenda
  freshness : Part.freshness ∉ changed → t.untouched = s.untouched
  bnnnMode : t.bnnnMode = s.bnnnMode

/-- The instruction completes: from `s` it answers the next state `t`, which meets `P`. -/
def Completes (i : Instr) (s : State) (P : State → Prop) : Prop := ∃ t, exec i s = .next t ∧ P t

/-- The instruction writes `v` to `V[x]`, advances `pc` by 2 and changes nothing else. -/
def WritesOnly (x : Reg) (v : Byte) (s t : State) : Prop :=
  t.reg x = v ∧ (∀ r, r ≠ x → t.reg r = s.reg r) ∧ t.pc = s.pc + 2#16 ∧ Unchanged [.registers, .pc] s t

/-- The instruction leaves VF as the flag `f` (0x01 or 0x00), `V[x]` (where it is not VF) as the number `v`, advances `pc` by 2 and
changes nothing else. -/
def WritesWithFlag (x : Reg) (v : Nat) (f : Prop) (s t : State) : Prop :=
  (x ≠ VF → (t.reg x).toNat = v) ∧ (f → t.reg VF = 0x01#8) ∧ (¬ f → t.reg VF = 0x00#8) ∧
    (∀ r, r ≠ x → r ≠ VF → t.reg r = s.reg r) ∧ t.pc = s.pc + 2#16 ∧ Unchanged [.registers, .pc] s t

/-- The instruction skips exactly when `c` holds and changes nothing but `pc`. -/
def SkipsExactlyWhen (c : Prop) (s t : State) : Prop :=
  (c → t.pc = s.pc + 4#16) ∧ (¬ c → t.pc = s.pc + 2#16) ∧ Unchanged [.pc] s t

/-- The latch holds `kind` and `addr`, and nothing else changed. -/
def OnlyLatched (kind : FaultKind) (addr : Word) (s t : State) : Prop :=
  t.FAULT.kind = kind ∧ t.FAULT.addr = addr ∧ Unchanged [.latch] s t

/-- The six skips (R126). -/
def IsSkip : Instr → Prop
  | .seImm _ _ | .sneImm _ _ | .seReg _ _ | .sneReg _ _ | .skp _ | .sknp _ => True
  | _ => False

/-- The instructions that can leave `pc` elsewhere than 2 further on without a fault (R25). -/
def MovesPc : Instr → Prop
  | .jp _ | .call _ | .ret | .jpV0 _ | .ldVxK _ => True
  | i => IsSkip i

/-- The six instructions that write VF as a flag (R22). -/
def WritesFlag : Instr → Prop
  | .addReg _ _ | .subReg _ _ | .shr _ | .subnReg _ _ | .shl _ | .drw _ _ _ => True
  | _ => False

/-- The registers an instruction may write: its destination `x`, the block V0..Vx of FX65, and VF where it writes a flag. -/
def MayWrite (i : Instr) (r : Reg) : Prop :=
  (WritesFlag i ∧ r = VF) ∨
  match i with
  | .ldImm x _ | .addImm x _ | .rnd x _ | .ldReg x _ | .orReg x _ | .andReg x _ | .xorReg x _ | .addReg x _ | .subReg x _
  | .shr x | .subnReg x _ | .shl x | .ldVxDt x | .ldVxK x => r = x
  | .loadRegs x => r.val ≤ x.val
  | _ => False

/-- The state is one `reset()` leaves, whatever the environment's fields hold (R242). -/
def IsFresh (s : State) : Prop :=
  s = { State.reset with
    bnnnMode := s.bnnnMode, agenda := s.agenda, drawQueue := s.drawQueue, drawCount := s.drawCount, warnings := s.warnings }

/-- Some set bit of the sprite lands on cell `k`: bit `7 - col` of the byte at `I + row`, at column `(V[x] + col) mod 64` and row
`(V[y] + row) mod 32` (R161, R162). -/
def SpriteHits (s : State) (x y : Reg) (n : BitVec 4) (k : Nat) : Prop :=
  ∃ row col : Nat, row < n.toNat ∧ col < 8 ∧ (s.mem.read (s.I.toNat + row)).getLsbD (7 - col) = true ∧
    k = ((s.reg x).toNat + col) % 64 + ((s.reg y).toNat + row) % 32 * 64

/-- Some bit of the sprite is set (R161 (f)). -/
def SpriteNotEmpty (s : State) (n : BitVec 4) : Prop :=
  ∃ row col : Nat, row < n.toNat ∧ col < 8 ∧ (s.mem.read (s.I.toNat + row)).getLsbD (7 - col) = true

/-- Every address of the sprite exists, or the sprite has no row (R161, R54). -/
def SpriteInRange (s : State) (n : BitVec 4) : Prop := n.toNat = 0 ∨ s.I.toNat + n.toNat ≤ 4096

end Sys2Proof.Claims

open Sys2Proof Sys2Proof.Machine Sys2Proof.Claims

/-! ### The cycle -/

/-- R11: a step runs the instruction the two bytes at `pc` decode to. That an empty agenda means `step()` is the model's choice
(log 2); it also marks that the state is no longer fresh (`State.touch`, log 9), a mark no instruction reads. -/
def Obligations.StepRunsTheDecodedInstruction : Prop :=
  ∀ (s : State) (i : Instr), s.FAULT.kind = .none → s.pc.toNat ≤ 0xFFE →
    decode [s.mem.read s.pc.toNat, s.mem.read (s.pc.toNat + 1)] = .ok (i, []) →
    (s.agenda = [] → step s = exec i s.touch) ∧
    (∀ rest, s.agenda = .step :: rest → step s = exec i ({ s with agenda := rest } : State).touch)

/-- 20_memory.md section 1: a fetch at 0xFFF or above faults, recording `pc` (D1), with nothing else changed but the mark of a fresh
state (log 9), whether the `step()` comes from an empty agenda or from the head of it (log 2). -/
def Obligations.FetchPastTheEndFaults : Prop :=
  ∀ s : State, s.FAULT.kind = .none → 0xFFF ≤ s.pc.toNat →
    (s.agenda = [] → ∃ t, step s = .next t ∧ OnlyLatched .addressOutOfBounds s.pc s.touch t) ∧
    (∀ rest, s.agenda = .step :: rest →
      ∃ t, step s = .next t ∧ OnlyLatched .addressOutOfBounds s.pc ({ s with agenda := rest } : State).touch t)

/-- The model's own (log 10): the word placed by `withFetchWord` is the one the next step runs, and what it changes is memory at `pc` only,
where a fetch is possible there. That the next step is `step()` is the empty agenda of log 2. -/
def Obligations.PlacedWordIsRunNext : Prop :=
  ∀ (s : State) (w : Nat), s.mem.wf → w < 65536 →
    step (s.withFetchWord 16 w) = exec (decodeWord (BitVec.ofNat 16 w)) (s.withFetchWord 16 w) ∧
    (s.pc.toNat ≤ 0xFFE → (s.withFetchWord 16 w).pc = s.pc ∧
      ∀ a, a ≠ s.pc.toNat → a ≠ s.pc.toNat + 1 → (s.withFetchWord 16 w).mem.read a = s.mem.read a)

/-- 20_memory.md section 7 (R61, derived there): a word stored by two byte writes is fetched with no action by the program, high
byte first. -/
def Obligations.StoredWordIsFetchedAtOnce : Prop :=
  ∀ s : State, s.mem.wf → s.I.toNat ≤ 0xFFE →
    Completes (.storeRegs 1) s fun t =>
      ({ t with pc := s.I } : State).fetch = some (BitVec.ofNat 16 ((s.reg 0).toNat * 256 + (s.reg 1).toNat))

/-! ### Encoding -/

/-- 30_encoding.md sections 1 to 5: decoding an encoded well-formed instruction gives it back, as a word and as bytes, with every operand at
every value. How much of a word is decoded is D13 (log 21), the shifts' ignored `y` D9 (log 20), the function codes of family 8 D19 (log
27). -/
def Obligations.DecodeOfEncodeIsTheInstruction : Prop :=
  ∀ (i : Instr) (rest : List Byte), i.wf = true →
    decodeWord (encode i) = i ∧ decode (encodeBytes i ++ rest) = .ok (i, rest)

/-- 30_encoding.md R78, R79: every word decodes to a well-formed instruction, whose encoding is the word with 0 in the ignored
bits (the bits ignored by D13 and D9; the function codes of family 8 by D19). -/
def Obligations.EveryWordDecodesAndReencodes : Prop :=
  ∀ op : Word, (decodeWord op).wf = true ∧ encode (decodeWord op) = canonicalWord op

/-- 30_encoding.md R78 against R81: the decode tree and the opcode map, first match wins, select the same row for every word (both
rest on D13 and D19). -/
def Obligations.DecodeTreeAgreesWithOpcodeMap : Prop :=
  ∀ op : Word, tableRow op = (decodeWord op).row

/-- 95_test_vectors.md section 2.1: words written out there decode as it says. 01E0 and 5AB7 rest on D13 (log 21), 8ABE on D9 and D19
(logs 20 and 27). -/
def Obligations.VectorWordsDecode : Prop :=
  decodeWord 0x00EE#16 = .ret ∧ decodeWord 0x01E0#16 = .sys 0x1E0#12 ∧ decodeWord 0x2ABC#16 = .call 0xABC#12 ∧
  decodeWord 0x5AB7#16 = .seReg 0xA 0xB ∧ decodeWord 0x6C99#16 = .ldImm 0xC 0x99#8 ∧ decodeWord 0x8ABE#16 = .shl 0xA ∧
  decodeWord 0x8AB9#16 = .unrecognized 0x8AB9#16 ∧ decodeWord 0xA2F0#16 = .ldI 0x2F0#12 ∧
  decodeWord 0xD125#16 = .drw 0x1 0x2 0x5#4 ∧ decodeWord 0xEFA1#16 = .sknp 0xF ∧ decodeWord 0xF255#16 = .storeRegs 0x2 ∧
  decodeWord 0xF066#16 = .unrecognized 0xF066#16

/-! ### Control transfer -/

/-- 40_flow_control.md R102: the word 1NNN, `pc := NNN` and nothing else; the jump to itself is a state that stays; JP 0xFFF executes and
the next step faults. That the next `step()` is the step of an empty agenda is the model's choice (log 2), the latch is D1 (log 1), and
the step's mark is log 9. -/
def Obligations.JumpSetsPc : Prop :=
  ∀ (nnn : BitVec 12) (s : State),
    decodeWord (hexAddr 0x1 nnn.toNat) = .jp nnn ∧
    Completes (.jp nnn) s (fun t =>
      t.pc.toNat = nnn.toNat ∧ Unchanged [.pc] s t ∧
      (s.pc.toNat = nnn.toNat → t = s) ∧
      (nnn = 0xFFF#12 → t.FAULT.kind = .none → t.agenda = [] →
        ∃ u, step t = .next u ∧ OnlyLatched .addressOutOfBounds 0x0FFF#16 t.touch u))

/-- 40_flow_control.md R103, the cell shape and the pushed address by D3: with room, CALL pushes its own address and jumps; with 16 saved it
raises StackOverflow and nothing else changes. The latch is D1 (log 1). -/
def Obligations.CallPushesItsAddress : Prop :=
  ∀ (nnn : BitVec 12) (s : State),
    decodeWord (hexAddr 0x2 nnn.toNat) = .call nnn ∧
    (∀ h : s.SP.val < 16, Completes (.call nnn) s (fun t =>
      t.pc.toNat = nnn.toNat ∧ t.SP.val = s.SP.val + 1 ∧ t.STACK[s.SP.val] = s.pc ∧
      (∀ k (hk : k < 16), k ≠ s.SP.val → t.STACK[k] = s.STACK[k]) ∧ Unchanged [.pc, .stack] s t)) ∧
    (s.SP.val = 16 → Completes (.call nnn) s (OnlyLatched .stackOverflow 0x0000#16 s))

/-- 40_flow_control.md R101, strict failure by D2: RET pops and lands two past the popped address, no cell cleared; on an empty stack it
raises StackUnderflow and nothing else changes. The stack's shape is D3 (log 14), the latch D1 (log 1). -/
def Obligations.ReturnPopsAndAdvances : Prop :=
  ∀ s : State,
    decodeWord (hex4 0x0 0x0 0xE 0xE) = .ret ∧
    (∀ k (h : k < 16), s.SP.val = k + 1 → Completes .ret s (fun t =>
      t.pc = s.STACK[k] + 2#16 ∧ t.SP.val = k ∧ t.STACK = s.STACK ∧ Unchanged [.pc, .stack] s t)) ∧
    (s.SP.val = 0 → Completes .ret s (OnlyLatched .stackUnderflow 0x0000#16 s))

/-- 40_flow_control.md R101 with R103: a CALL with room, then a RET, comes back to the word after the CALL with the stack as deep as before
and every saved entry as it was. The stack's shape and the pushed address are D3 (log 14). -/
def Obligations.ReturnUndoesCall : Prop :=
  ∀ (nnn : BitVec 12) (s : State), s.SP.val < 16 →
    Completes (.call nnn) s fun t => Completes .ret t fun u =>
      u.pc = s.pc + 2#16 ∧ u.SP = s.SP ∧ (∀ k (h : k < 16), k < s.SP.val → u.STACK[k] = s.STACK[k]) ∧
      Unchanged [.pc, .stack] s u

/-- 40_flow_control.md R100, R105 (SYS by D12, D13; the trace of warnings is the model's, log 6): a SYS word and an unassigned word
emit one warning carrying the word, advance `pc` by 2 and change nothing else. -/
def Obligations.UnrecognizedWordsWarnAndAdvance : Prop :=
  ∀ (s : State) (op : Word),
    (∀ nnn : BitVec 12, nnn ≠ 0x0E0#12 → nnn ≠ 0x0EE#12 →
      decodeWord (hexAddr 0x0 nnn.toNat) = .sys nnn ∧
      Completes (.sys nnn) s fun t =>
        t.warnings = hexAddr 0x0 nnn.toNat :: s.warnings ∧ t.pc = s.pc + 2#16 ∧ Unchanged [.pc, .warnings] s t) ∧
    Completes (.unrecognized op) s fun t =>
      t.warnings = op :: s.warnings ∧ t.pc = s.pc + 2#16 ∧ Unchanged [.pc, .warnings] s t

/-- 40_flow_control.md R104, by D12: BNNN is a warned no-op under `unrecognized` and the jump to `nnn + V[0]`, not reduced, under
`jump_v0`. -/
def Obligations.JumpV0FollowsItsMode : Prop :=
  ∀ (nnn : BitVec 12) (s : State),
    decodeWord (hexAddr 0xB nnn.toNat) = .jpV0 nnn ∧
    (s.bnnnMode = .unrecognized → Completes (.jpV0 nnn) s fun t =>
      t.warnings = hexAddr 0xB nnn.toNat :: s.warnings ∧ t.pc = s.pc + 2#16 ∧ Unchanged [.pc, .warnings] s t) ∧
    (s.bnnnMode = .jumpV0 → Completes (.jpV0 nnn) s fun t =>
      t.pc.toNat = nnn.toNat + (s.reg 0).toNat ∧ Unchanged [.pc] s t)

/-! ### Skips -/

/-- 41_skip.md R126: a skip adds 4 or 2 to `pc` and writes nothing else, whatever memory holds (the word stepped over is not read); at 0xFFC
and 0xFFE the next fetch faults as it says (in the latch of D1, by the step of an empty agenda, log 2, which leaves the mark of log 9).
Which condition each skip tests is stated apart. -/
def Obligations.SkipsWriteOnlyPc : Prop :=
  ∀ (i : Instr) (s : State), IsSkip i →
    Completes i s fun t =>
      (t.pc = s.pc + 4#16 ∨ t.pc = s.pc + 2#16) ∧ Unchanged [.pc] s t ∧
      (∀ m : Memory, exec i { s with mem := m } = .next { t with mem := m }) ∧
      (s.pc = 0x0FFC#16 → t.pc = s.pc + 4#16 → t.pc = 0x1000#16) ∧
      (s.pc = 0x0FFE#16 → t.pc = 0x1002#16 ∨ t.pc = 0x1000#16) ∧
      (0x1000 ≤ t.pc.toNat → t.FAULT.kind = .none → t.agenda = [] →
        ∃ u, step t = .next u ∧ OnlyLatched .addressOutOfBounds t.pc t.touch u)

/-- 41_skip.md section 2, 3XNN and 4XNN: the conditions are from general knowledge (D18). -/
def Obligations.ImmediateSkipsCompare : Prop :=
  ∀ (x : Reg) (nn : Byte) (s : State),
    decodeWord (hex2Byte 0x3 x nn.toNat) = .seImm x nn ∧ decodeWord (hex2Byte 0x4 x nn.toNat) = .sneImm x nn ∧
    Completes (.seImm x nn) s (SkipsExactlyWhen ((s.reg x).toNat = nn.toNat) s) ∧
    Completes (.sneImm x nn) s (SkipsExactlyWhen ((s.reg x).toNat ≠ nn.toNat) s)

/-- 41_skip.md section 2, 5XY0 and 9XY0, the low nibble ignored by D13. -/
def Obligations.RegisterSkipsCompare : Prop :=
  ∀ (x y : Reg) (n : Fin 16) (s : State),
    decodeWord (hex4 0x5 x y n) = .seReg x y ∧ decodeWord (hex4 0x9 x y n) = .sneReg x y ∧
    Completes (.seReg x y) s (SkipsExactlyWhen ((s.reg x).toNat = (s.reg y).toNat) s) ∧
    Completes (.sneReg x y) s (SkipsExactlyWhen ((s.reg x).toNat ≠ (s.reg y).toNat) s)

/-- 41_skip.md section 2, EX9E and EXA1: a key index above 15 reads as not pressed (D14). -/
def Obligations.KeySkipsTestTheKeypad : Prop :=
  ∀ (x : Reg) (s : State),
    decodeWord (hex4 0xE x 0x9 0xE) = .skp x ∧ decodeWord (hex4 0xE x 0xA 0x1) = .sknp x ∧
    Completes (.skp x) s (SkipsExactlyWhen ((s.reg x).toNat ≤ 15 ∧ s.KEY.getLsbD (s.reg x).toNat = true) s) ∧
    Completes (.sknp x) s (SkipsExactlyWhen (¬ ((s.reg x).toNat ≤ 15 ∧ s.KEY.getLsbD (s.reg x).toNat = true)) s)

/-! ### Immediate and random -/

/-- R130, whole: the word 6XNN writes `nn` to `V[x]` (VF only as the ordinary destination), and nothing else but `pc + 2`. -/
def Obligations.LoadImmediateWritesRegister : Prop :=
  ∀ (x : Reg) (nn : Byte) (s : State),
    decodeWord (hex2Byte 0x6 x nn.toNat) = .ldImm x nn ∧ Completes (.ldImm x nn) s (WritesOnly x nn s)

/-- 42_immediate_random.md R131: the sum mod 256; that VF is not written on overflow is the spec's own inference there. -/
def Obligations.AddImmediateWrapsWithoutFlag : Prop :=
  ∀ (x : Reg) (nn : Byte) (s : State),
    decodeWord (hex2Byte 0x7 x nn.toNat) = .addImm x nn ∧
    Completes (.addImm x nn) s fun t =>
      (t.reg x).toNat = ((s.reg x).toNat + nn.toNat) % 256 ∧ (∀ r, r ≠ x → t.reg r = s.reg r) ∧ t.pc = s.pc + 2#16 ∧
      Unchanged [.registers, .pc] s t

/-- 42_immediate_random.md R132, R133: CXNN writes some draw masked by `nn`, the supplied one where the environment has supplied
draws (D20; the queue and the free value are the model's, log 3); one draw is consumed whatever `nn` is. -/
def Obligations.RandomIsAMaskedDraw : Prop :=
  ∀ (x : Reg) (nn : Byte) (s : State),
    decodeWord (hex2Byte 0xC x nn.toNat) = .rnd x nn ∧
    (∀ r q, s.drawQueue = r :: q → Completes (.rnd x nn) s fun t => t.reg x = r &&& nn ∧ t.drawQueue = q) ∧
    Completes (.rnd x nn) s fun t =>
      (∃ r : Byte, t.reg x = r &&& nn) ∧ t.drawCount = s.drawCount + 1 ∧ t.drawQueue = s.drawQueue.tail ∧
      (∀ r, r ≠ x → t.reg r = s.reg r) ∧ t.pc = s.pc + 2#16 ∧ Unchanged [.registers, .pc, .draws] s t

/-! ### ALU -/

/-- 43_alu.md section 2, 8XY0 to 8XY3: that none of the four writes VF as a flag is D7 (log 18). Which function code is which
operation is D19 (log 27), derived in R75. -/
def Obligations.CopyAndLogicWriteNoFlag : Prop :=
  ∀ (x y : Reg) (s : State),
    (decodeWord (hex4 0x8 x y 0x0) = .ldReg x y ∧ Completes (.ldReg x y) s (WritesOnly x (s.reg y) s)) ∧
    (decodeWord (hex4 0x8 x y 0x1) = .orReg x y ∧ Completes (.orReg x y) s (WritesOnly x (s.reg x ||| s.reg y) s)) ∧
    (decodeWord (hex4 0x8 x y 0x2) = .andReg x y ∧ Completes (.andReg x y) s (WritesOnly x (s.reg x &&& s.reg y) s)) ∧
    (decodeWord (hex4 0x8 x y 0x3) = .xorReg x y ∧ Completes (.xorReg x y) s (WritesOnly x (s.reg x ^^^ s.reg y) s))

/-- 43_alu.md R144: the sum mod 256 and the carry; with `x = 0xF` the flag wins (D8). -/
def Obligations.AddSetsCarry : Prop :=
  ∀ (x y : Reg) (s : State),
    decodeWord (hex4 0x8 x y 0x4) = .addReg x y ∧
    Completes (.addReg x y) s (WritesWithFlag x (((s.reg x).toNat + (s.reg y).toNat) % 256)
      (255 < (s.reg x).toNat + (s.reg y).toNat) s)

/-- 43_alu.md R145, R147: the difference mod 256 and NOT borrow, 1 at equality (D10); with `x = 0xF` the flag wins (D8).
That 8XY7 is the reverse subtract is D19 (log 27), derived in R75, and its flag sense is the spec's own inference in R147. -/
def Obligations.SubtractsSetNotBorrow : Prop :=
  ∀ (x y : Reg) (s : State),
    decodeWord (hex4 0x8 x y 0x5) = .subReg x y ∧ decodeWord (hex4 0x8 x y 0x7) = .subnReg x y ∧
    Completes (.subReg x y) s (WritesWithFlag x (((s.reg x).toNat + 256 - (s.reg y).toNat) % 256)
      ((s.reg y).toNat ≤ (s.reg x).toNat) s) ∧
    Completes (.subnReg x y) s (WritesWithFlag x (((s.reg y).toNat + 256 - (s.reg x).toNat) % 256)
      ((s.reg x).toNat ≤ (s.reg y).toNat) s)

/-- 43_alu.md R146, R148: logical shifts of `V[x]` in place, `y` ignored (D9), the bit shifted out in VF (D8 with `x = 0xF`); the
function code 0xE is D19. -/
def Obligations.ShiftsSetShiftedOutBit : Prop :=
  ∀ (x y : Reg) (s : State),
    decodeWord (hex4 0x8 x y 0x6) = .shr x ∧ decodeWord (hex4 0x8 x y 0xE) = .shl x ∧
    Completes (.shr x) s (WritesWithFlag x ((s.reg x).toNat / 2) ((s.reg x).toNat % 2 = 1) s) ∧
    Completes (.shl x) s (WritesWithFlag x ((s.reg x).toNat * 2 % 256) (128 ≤ (s.reg x).toNat) s)

/-- 10_state.md R22, R37 (e): after a flag-writing instruction that does not fault, VF is 0x00 or 0x01. With `x = 0xF` it rests on the flag
being written last, D8 (log 17); for DXYN with `n = 0` on VF being set to 0, D27 (log 24). -/
def Obligations.FlagWritersLeaveZeroOrOne : Prop :=
  ∀ (i : Instr) (s t : State), WritesFlag i → s.FAULT.kind = .none → exec i s = .next t → t.FAULT.kind = .none →
    t.reg VF = 0x00#8 ∨ t.reg VF = 0x01#8

/-! ### Display -/

/-- R160, whole: the word 00E0 clears all 2048 cells, advances `pc` by 2, and writes nothing else, VF included. -/
def Obligations.ClearScreenClearsEveryCell : Prop :=
  ∀ s : State,
    decodeWord (hex4 0x0 0x0 0xE 0x0) = .cls ∧
    Completes .cls s fun t =>
      (∀ k, k < 2048 → t.pixel k = false) ∧ t.pc = s.pc + 2#16 ∧ Unchanged [.display, .pc] s t

/-- 44_display.md R162: the two forms of the framebuffer address, and that it is a cell. -/
def Obligations.FramebufferAddressForms : Prop :=
  ∀ px py : Nat,
    fbaddr px py = px % 64 + py % 32 * 64 ∧
    fbaddr px py = (BitVec.ofNat 5 py ++ BitVec.ofNat 6 px).toNat ∧ fbaddr px py < 2048

/-- 44_display.md R161: every cell a set sprite bit lands on is flipped, with wrap-around, every other cell stays; VF is 1 exactly when
a cell went from 1 to 0. Bit and row order by D15, the range by D6 and D32, `n = 0` and `x` or `y` = 0xF by D27. -/
def Obligations.DrawXorsTheSprite : Prop :=
  ∀ (x y : Reg) (n : BitVec 4) (s : State), SpriteInRange s n →
    decodeWord (hex4 0xD x y n.toNat) = .drw x y n ∧
    Completes (.drw x y n) s fun t =>
      (∀ k, k < 2048 → (SpriteHits s x y n k → t.pixel k = !s.pixel k) ∧ (¬ SpriteHits s x y n k → t.pixel k = s.pixel k)) ∧
      ((∃ k, k < 2048 ∧ SpriteHits s x y n k ∧ s.pixel k = true) → t.reg VF = 0x01#8) ∧
      ((¬ ∃ k, k < 2048 ∧ SpriteHits s x y n k ∧ s.pixel k = true) → t.reg VF = 0x00#8) ∧
      (∀ r, r ≠ VF → t.reg r = s.reg r) ∧ t.pc = s.pc + 2#16 ∧ Unchanged [.registers, .display, .pc] s t

/-- 44_display.md R161 (f), DOC00's property 3: drawing the same sprite twice at the same place (its coordinates not in VF) restores every
cell; on cells that were clear the first draw reports no collision and the second does, if the sprite has a set bit. Which cells are hit
rests on the bit and row order of D15 (log 23, PRESUMED), VF with `n = 0` on D27 (log 24), the range on D6 and D32 (log 16). With `x` or `y`
= 0xF the first draw's flag moves the second draw, which is then not at the same place. -/
def Obligations.DrawingTwiceRestoresTheScreen : Prop :=
  ∀ (x y : Reg) (n : BitVec 4) (s : State), SpriteInRange s n → x ≠ VF → y ≠ VF →
    Completes (.drw x y n) s fun t => Completes (.drw x y n) t fun u =>
      (∀ k, u.pixel k = s.pixel k) ∧
      (SpriteNotEmpty s n → t.reg VF = 0x01#8 ∨ u.reg VF = 0x01#8) ∧
      ((∀ k, SpriteHits s x y n k → s.pixel k = false) → t.reg VF = 0x00#8 ∧ (SpriteNotEmpty s n → u.reg VF = 0x01#8))

/-! ### Timers and keys -/

/-- 45_timer_key.md R170, R172, R173: which of the three opcodes does what is from general knowledge (D17). -/
def Obligations.TimerInstructionsMoveTheirTimer : Prop :=
  ∀ (x : Reg) (s : State),
    (decodeWord (hex4 0xF x 0x0 0x7) = .ldVxDt x ∧ Completes (.ldVxDt x) s (WritesOnly x s.DT s)) ∧
    (decodeWord (hex4 0xF x 0x1 0x5) = .ldDtVx x ∧
      Completes (.ldDtVx x) s fun t => t.DT = s.reg x ∧ t.pc = s.pc + 2#16 ∧ Unchanged [.delayTimer, .pc] s t) ∧
    (decodeWord (hex4 0xF x 0x1 0x8) = .ldStVx x ∧
      Completes (.ldStVx x) s fun t => t.ST = s.reg x ∧ t.pc = s.pc + 2#16 ∧ Unchanged [.soundTimer, .pc] s t)

/-- 45_timer_key.md R171: with a key down, the lowest one goes to `V[x]`; with none, the step changes nothing at all. The level of the
flag is what counts (D28). -/
def Obligations.KeyWaitTakesTheLowestKey : Prop :=
  ∀ (x : Reg) (s : State),
    decodeWord (hex4 0xF x 0x0 0xA) = .ldVxK x ∧
    (∀ k, k < 16 → s.KEY.getLsbD k = true → (∀ j, j < k → s.KEY.getLsbD j = false) →
      Completes (.ldVxK x) s fun t => (t.reg x).toNat = k ∧ (∀ r, r ≠ x → t.reg r = s.reg r) ∧ t.pc = s.pc + 2#16 ∧
        Unchanged [.registers, .pc] s t) ∧
    ((∀ k, k < 16 → s.KEY.getLsbD k = false) → exec (.ldVxK x) s = .next s)

/-- 60_exceptions.md R220: the tick lowers each timer by one, floored at zero, and changes nothing else, faulted or not, but for the
mark of a fresh state (log 9). The tick comes through the agenda (log 2). -/
def Obligations.TickLowersTimersToZero : Prop :=
  ∀ (s : State) (rest : List Op), s.agenda = .tickTimers :: rest →
    ∃ t, step s = .next t ∧ t.DT.toNat = s.DT.toNat - 1 ∧ t.ST.toNat = s.ST.toNat - 1 ∧ t.agenda = rest ∧
      Unchanged [.delayTimer, .soundTimer, .agenda, .freshness] s t

/-- 60_exceptions.md R220 (derived there): after `n` ticks with no other operation each timer is lower by `n`, floored at zero, so a
timer written with `v` is zero after exactly `v` ticks. Ticks come through the agenda (log 2); the mark of a fresh state is log 9. -/
def Obligations.TimerIsZeroAfterItsTicks : Prop :=
  ∀ (n : Nat) (s : State) (rest : List Op), s.agenda = List.replicate n .tickTimers ++ rest →
    ∃ t, run n s = .next t ∧ t.DT.toNat = s.DT.toNat - n ∧ t.ST.toNat = s.ST.toNat - n ∧ t.agenda = rest ∧
      Unchanged [.delayTimer, .soundTimer, .agenda, .freshness] s t

/-- 10_state.md R31: `setKey(k, b)` sets flag `k` and nothing else; no instruction writes KEY; EX9E, EXA1 and FX0A read it and no other
instruction does; `reset()` zeroes it and is the only other writer; every flag is 0 at reset. Keys are set between steps, through the
agenda (the model's form of a schedule, log 2), and a write that changes something marks the state as no longer fresh (log 9). -/
def Obligations.KeypadIsWrittenFromOutsideOnly : Prop :=
  (∀ (s : State) (k : Fin 16) (b : Bool) (rest : List Op), s.agenda = .setKey k b :: rest →
    ∃ t, step s = .next t ∧ t.KEY.getLsbD k = b ∧ (∀ j, j ≠ k.val → t.KEY.getLsbD j = s.KEY.getLsbD j) ∧ t.agenda = rest ∧
      Unchanged [.keypad, .agenda, .freshness] s t) ∧
  (∀ (i : Instr) (s t : State), exec i s = .next t → t.KEY = s.KEY) ∧
  (∀ (i : Instr) (s t : State) (keys : BitVec 16), (∀ x, i ≠ .skp x ∧ i ≠ .sknp x ∧ i ≠ .ldVxK x) →
    exec i s = .next t → exec i { s with KEY := keys } = .next { t with KEY := keys }) ∧
  (∀ (i : Instr) (x : Reg), i = .skp x ∨ i = .sknp x ∨ i = .ldVxK x → ∃ (s t u : State) (keys : BitVec 16),
    exec i s = .next t ∧ exec i { s with KEY := keys } = .next u ∧ t.pc ≠ u.pc) ∧
  (∀ (s : State) (rest : List Op), s.agenda = .reset :: rest → ∃ t, step s = .next t ∧ t.KEY = 0#16) ∧
  (∀ s t : State, step s = .next t → t.KEY ≠ s.KEY →
    (∃ rest, s.agenda = .reset :: rest) ∨ ∃ k b rest, s.agenda = .setKey k b :: rest) ∧
  State.reset.KEY = 0#16

/-- 10_state.md R28, R29 (with D17): no instruction reads the sound timer, and none but FX07 reads the delay timer. -/
def Obligations.TimersAreReadOnlyWhereNamed : Prop :=
  ∀ (i : Instr) (s t : State) (v : Byte), exec i s = .next t →
    ((∀ x, i ≠ .ldStVx x) → exec i { s with ST := v } = .next { t with ST := v }) ∧
    ((∀ x, i ≠ .ldVxDt x ∧ i ≠ .ldDtVx x) → exec i { s with DT := v } = .next { t with DT := v }) ∧
    (∀ x, i = .ldStVx x → exec i { s with ST := v } = .next t) ∧
    (∀ x, i = .ldDtVx x → exec i { s with DT := v } = .next t)

/-! ### Index register and memory -/

/-- 46_index_memory.md R180: the word ANNN writes `nnn` to `I` and nothing else but `pc + 2`; after `LD I, 0xFFF` an FX33 faults, by the
range check of D6 (log 16), in the latch of D1 (log 1). -/
def Obligations.LoadIndexWritesIndex : Prop :=
  ∀ (nnn : BitVec 12) (s : State),
    decodeWord (hexAddr 0xA nnn.toNat) = .ldI nnn ∧
    Completes (.ldI nnn) s fun t =>
      t.I.toNat = nnn.toNat ∧ t.I.toNat ≤ 4095 ∧ t.pc = s.pc + 2#16 ∧ Unchanged [.index, .pc] s t ∧
      (nnn = 0xFFF#12 → ∀ x, Completes (.ldB x) t fun u => u.FAULT.kind = .addressOutOfBounds)

/-- 46_index_memory.md R181: the sum modulo 65536 (the width by D4), VF not written. -/
def Obligations.AddIndexWrapsWithoutFlag : Prop :=
  ∀ (x : Reg) (s : State),
    decodeWord (hex4 0xF x 0x1 0xE) = .addI x ∧
    Completes (.addI x) s fun t =>
      t.I.toNat = (s.I.toNat + (s.reg x).toNat) % 65536 ∧ t.pc = s.pc + 2#16 ∧ Unchanged [.index, .pc] s t

/-- R182, whole: the word FX29 points `I` at five times the low nibble and changes nothing else but `pc`; at reset the glyph of 0 stands at
address 0. -/
def Obligations.LoadFontAddress : Prop :=
  (∀ (x : Reg) (s : State),
    decodeWord (hex4 0xF x 0x2 0x9) = .ldF x ∧
    Completes (.ldF x) s fun t =>
      t.I.toNat = (s.reg x).toNat % 16 * 5 ∧ t.pc = s.pc + 2#16 ∧ Unchanged [.index, .pc] s t) ∧
  State.reset.mem.readRun 0 5 = [0xF0#8, 0x90#8, 0x90#8, 0x90#8, 0xF0#8]

/-- 46_index_memory.md R183: the three decimal digits at `I`, `I + 1`, `I + 2`, every other byte as before; the check by D6. (Canonical
memory is the model's invariant.) The range's end is D32 (log 16). -/
def Obligations.StoreDecimalDigits : Prop :=
  ∀ (x : Reg) (s : State), s.mem.wf → s.I.toNat + 2 ≤ 4095 →
    decodeWord (hex4 0xF x 0x3 0x3) = .ldB x ∧
    Completes (.ldB x) s fun t =>
      (t.mem.read s.I.toNat).toNat = (s.reg x).toNat / 100 ∧
      (t.mem.read (s.I.toNat + 1)).toNat = (s.reg x).toNat / 10 % 10 ∧
      (t.mem.read (s.I.toNat + 2)).toNat = (s.reg x).toNat % 10 ∧
      (∀ a, a < s.I.toNat ∨ s.I.toNat + 2 < a → t.mem.read a = s.mem.read a) ∧
      t.pc = s.pc + 2#16 ∧ Unchanged [.memory, .pc] s t

/-- 46_index_memory.md R184: V0..Vx at `I` and up, every other byte as before, `I` unchanged (D11); the check by D6. -/
def Obligations.StoreRegisterBlock : Prop :=
  ∀ (x : Reg) (s : State), s.mem.wf → s.I.toNat + x.val ≤ 4095 →
    decodeWord (hex4 0xF x 0x5 0x5) = .storeRegs x ∧
    Completes (.storeRegs x) s fun t =>
      (∀ r : Reg, r.val ≤ x.val → t.mem.read (s.I.toNat + r.val) = s.reg r) ∧
      (∀ a, a < s.I.toNat ∨ s.I.toNat + x.val < a → t.mem.read a = s.mem.read a) ∧
      t.pc = s.pc + 2#16 ∧ Unchanged [.memory, .pc] s t

/-- 46_index_memory.md R185: V0..Vx from `I` and up, higher registers and `I` unchanged (D11); the check by D6. -/
def Obligations.LoadRegisterBlock : Prop :=
  ∀ (x : Reg) (s : State), s.I.toNat + x.val ≤ 4095 →
    decodeWord (hex4 0xF x 0x6 0x5) = .loadRegs x ∧
    Completes (.loadRegs x) s fun t =>
      (∀ r : Reg, r.val ≤ x.val → t.reg r = s.mem.read (s.I.toNat + r.val)) ∧
      (∀ r : Reg, x.val < r.val → t.reg r = s.reg r) ∧
      t.pc = s.pc + 2#16 ∧ Unchanged [.registers, .pc] s t

/-- 46_index_memory.md R184 with R185: storing V0..Vx and loading them back, whatever the registers were changed to between, gives the
stored values, `I` as it was: both leave `I` (D11, log 28). -/
def Obligations.LoadBlockUndoesStoreBlock : Prop :=
  ∀ (x : Reg) (s : State) (regs : Vector Byte 16), s.mem.wf → s.I.toNat + x.val ≤ 4095 →
    Completes (.storeRegs x) s fun t => Completes (.loadRegs x) { t with V := regs } fun u =>
      (∀ r : Reg, r.val ≤ x.val → u.reg r = s.reg r) ∧ (∀ r : Reg, x.val < r.val → u.reg r = regs[r]) ∧ u.I = s.I

/-- 20_memory.md R52 to R54, by D6 and D1: an instruction whose range leaves memory raises AddressOutOfBounds with the lowest address out of
range, and nothing else changes. The ranges' ends are D32 (log 16), the case `n = 0` is left to D27 (log 24). -/
def Obligations.MemoryInstructionsFaultOutOfRange : Prop :=
  ∀ (x y : Reg) (n : BitVec 4) (s : State),
    (0 < n.toNat → 4095 < s.I.toNat + n.toNat - 1 →
      Completes (.drw x y n) s (OnlyLatched .addressOutOfBounds (BitVec.ofNat 16 (max s.I.toNat 4096)) s)) ∧
    (4095 < s.I.toNat + 2 →
      Completes (.ldB x) s (OnlyLatched .addressOutOfBounds (BitVec.ofNat 16 (max s.I.toNat 4096)) s)) ∧
    (4095 < s.I.toNat + x.val →
      Completes (.storeRegs x) s (OnlyLatched .addressOutOfBounds (BitVec.ofNat 16 (max s.I.toNat 4096)) s) ∧
      Completes (.loadRegs x) s (OnlyLatched .addressOutOfBounds (BitVec.ofNat 16 (max s.I.toNat 4096)) s))

/-! ### Faults -/

/-- 60_exceptions.md R200 to R203, R208: the exact conditions under which an executed instruction raises each kind of fault, and that none
raises RomTooLarge (D1, D2, D6). The stack's depth is D3 (log 14), the ranges are D32 (log 16), `n = 0` is D27 (log 24). -/
def Obligations.FaultsHaveTheirExactConditions : Prop :=
  ∀ (i : Instr) (s t : State), s.FAULT.kind = .none → exec i s = .next t →
    (t.FAULT.kind = .stackUnderflow ↔ i = .ret ∧ s.SP.val = 0) ∧
    (t.FAULT.kind = .stackOverflow ↔ (∃ nnn, i = .call nnn) ∧ s.SP.val = 16) ∧
    (t.FAULT.kind = .addressOutOfBounds ↔
      (∃ x y n, i = .drw x y n ∧ 0 < n.toNat ∧ 4095 < s.I.toNat + n.toNat - 1) ∨
      (∃ x, i = .ldB x ∧ 4095 < s.I.toNat + 2) ∨
      (∃ x, (i = .storeRegs x ∨ i = .loadRegs x) ∧ 4095 < s.I.toNat + x.val)) ∧
    t.FAULT.kind ≠ .romTooLarge

/-- 60_exceptions.md R206 (D1, D6): faults are precise: an instruction either leaves the latch alone or changes nothing but the latch. -/
def Obligations.FaultsArePrecise : Prop :=
  ∀ (i : Instr) (s t : State), exec i s = .next t → t.FAULT = s.FAULT ∨ t = { s with FAULT := t.FAULT }

/-- 60_exceptions.md R207 (D23): while the latch is set `step()` changes nothing, ticks and keys act and keep it, `load()` is refused, and
`reset()` clears it. The operations come through the agenda (log 2). -/
def Obligations.FaultedMachineWaitsForReset : Prop :=
  ∀ (s : State) (rest : List Op), s.FAULT.kind ≠ .none →
    (s.agenda = [] → step s = .next s) ∧
    (s.agenda = .step :: rest → step s = .next { s with agenda := rest }) ∧
    (s.agenda = .tickTimers :: rest → ∃ t, step s = .next t ∧ t.FAULT = s.FAULT ∧ t.DT.toNat = s.DT.toNat - 1) ∧
    (∀ k b, s.agenda = .setKey k b :: rest → ∃ t, step s = .next t ∧ t.FAULT = s.FAULT ∧ t.KEY.getLsbD k.val = b) ∧
    (∀ rom, s.agenda = .load rom :: rest → step s = .refused .loadOnUsedState) ∧
    (s.agenda = .reset :: rest → ∃ t, step s = .next t ∧ t.FAULT.kind = .none)

/-- 60_exceptions.md R200, R80: every instruction in every state answers a next state: none stops the machine, and the four faults are next
states (log 1). That a SYS word and BNNN are warned no-ops or the jump is D12 (logs 4 and 32). -/
def Obligations.EveryInstructionAnswersANextState : Prop :=
  ∀ (i : Instr) (s : State), ∃ t, exec i s = .next t

/-- 70_reset_and_hazards.md R242 (D24): a step is refused exactly when it applies `load()` to a state that is not fresh, and never ends in a
host-level fault. Fresh is what `reset()` leaves, and stays so only under a tick or a key write that changes nothing; `load()`, whatever
the ROM, `step()` and every other operation end it. (How the model keeps that history is log 9.) -/
def Obligations.OnlyLoadOffAFreshStateIsRefused : Prop :=
  (∀ s : State,
    ((∃ r, step s = .refused r) ↔ ∃ rom rest, s.agenda = .load rom :: rest ∧ ¬ IsFresh { s with agenda := rest }) ∧
    (∀ r, step s = .refused r → r = .loadOnUsedState) ∧ (∀ f, step s ≠ .fault f)) ∧
  (∀ (op : Op) (s t : State), applyOp op s = .next t →
    (IsFresh t ↔ op = .reset ∨ (IsFresh s ∧ (op = .tickTimers ∨ ∃ k, op = .setKey k false)))) ∧
  (∀ (rom rom' : List Byte) (s t : State), applyOp (.load rom) s = .next t → applyOp (.load rom') t = .refused .loadOnUsedState)

/-! ### Reset and load -/

/-- 70_reset_and_hazards.md R240 (I by D4, the latch by D1, the font table by D16): what `reset()` leaves, from any state. That the model's
own fields are kept, and the mark of a fresh state set, is log 7; `reset()` comes through the agenda (log 2). -/
def Obligations.ResetLeavesTheFreshState : Prop :=
  ∀ (s : State) (rest : List Op), s.agenda = .reset :: rest →
    ∃ t, step s = .next t ∧
      (∀ a, a < 80 → t.mem.read a = font.getD a 0x00#8) ∧ (∀ a, 80 ≤ a → t.mem.read a = 0x00#8) ∧
      (∀ r, t.reg r = 0x00#8) ∧ t.I = 0x0000#16 ∧ t.pc = 0x0200#16 ∧ t.SP.val = 0 ∧
      (∀ k (h : k < 16), t.STACK[k] = 0x0000#16) ∧ t.DT = 0x00#8 ∧ t.ST = 0x00#8 ∧ (∀ k, t.pixel k = false) ∧
      t.KEY = 0#16 ∧ t.FAULT.kind = .none ∧ t.FAULT.addr = 0x0000#16 ∧
      t.bnnnMode = s.bnnnMode ∧ t.agenda = rest ∧ t.drawQueue = s.drawQueue ∧ t.drawCount = s.drawCount ∧
      t.warnings = s.warnings ∧ t.untouched = true

/-- 10_state.md R35: the reset state of the model is the one `reset()` leaves (the values of the model's own fields are logs 2, 3, 4, 6 and
9, and not stated). The font's glyphs 1 to F are D16 (log 5), `I` is D4 (log 12), the latch D1 (log 1). -/
def Obligations.ResetStateIsFresh : Prop :=
  IsFresh State.reset ∧ font.length = 80 ∧ State.reset.mem.readRun 0x04B 6 = [0xF0#8, 0x80#8, 0xF0#8, 0x80#8, 0x80#8, 0x00#8] ∧
  (∀ s : State, ∃ t, applyOp .reset s = .next t ∧ IsFresh t)

/-- 70_reset_and_hazards.md R242, R204 (D24): on a fresh state `load` copies at most 0xE00 bytes to 0x200 and up and changes nothing else; a
longer ROM raises RomTooLarge and copies nothing. Either way the state is no longer fresh (log 9); `load` comes through the agenda (log 2).
The latch is D1 (log 1). -/
def Obligations.LoadCopiesTheRom : Prop :=
  ∀ (s : State) (rom : List Byte) (rest : List Op), s.agenda = .load rom :: rest → IsFresh s →
    (rom.length ≤ 0xE00 → ∃ t, step s = .next t ∧
      (∀ i (h : i < rom.length), t.mem.read (0x200 + i) = rom[i]) ∧
      (∀ a, a < 0x200 ∨ 0x200 + rom.length ≤ a → t.mem.read a = s.mem.read a) ∧ t.agenda = rest ∧
      ¬ IsFresh t ∧ Unchanged [.memory, .agenda, .freshness] s t) ∧
    (0xE00 < rom.length → ∃ t, step s = .next t ∧ t.FAULT.kind = .romTooLarge ∧ t.FAULT.addr = 0x0000#16 ∧ t.agenda = rest ∧
      ¬ IsFresh t ∧ Unchanged [.latch, .agenda, .freshness] s t)

/-- 70_reset_and_hazards.md R241 (derived there), DOC00's property 2: a reset and a load leave the new ROM and zeros to the end of memory,
whatever the machine held. Both come through the agenda (log 2). That `load()` needs a fresh state is D24 (log 9), the latch D1 (log 1). -/
def Obligations.ReloadLeavesNoResidue : Prop :=
  ∀ (s : State) (rom : List Byte) (rest : List Op), s.agenda = .reset :: .load rom :: rest → rom.length ≤ 0xE00 →
    ∃ t u, step s = .next t ∧ step t = .next u ∧
      (∀ i (h : i < rom.length), u.mem.read (0x200 + i) = rom[i]) ∧
      (∀ a, 0x200 + rom.length ≤ a → a ≤ 0xFFF → u.mem.read a = 0x00#8) ∧
      u.pc = 0x0200#16 ∧ u.FAULT.kind = .none ∧ u.agenda = rest

/-! ### The whole machine -/

/-- 10_state.md R37: the reset state meets the invariants. The latch is D1 (log 1), the mark of a fresh state log 9. -/
def Obligations.ResetStateMeetsTheInvariants : Prop := State.reset.Inv

/-- 10_state.md R37 (a) to (d) with R33, the model's canonical memory and its mark of a fresh state (log 9): every step of every operation
of the interface, from every state that meets the invariants, keeps them. The latch is D1 (log 1), the stack's shape D3 (log 14), the width
of `pc` D5 (log 31), the bound under `jump_v0` D12 (log 4), the range check D6 (log 16). -/
def Obligations.EveryStepKeepsTheInvariants : Prop :=
  ∀ s t : State, s.Inv → step s = .next t → t.Inv

/-- 10_state.md R21 to R33: which instructions can change each part of the state (D4, D7, D11, D17); in particular a register changes only
as a destination or as the flag. The latch changes only by the instructions that can fault (D1, D2, D3, D6), and `pc` stays only by a fault,
the key wait with no key (D28), and a jump, call or return that lands on its own address. -/
def Obligations.EachPartHasItsWriters : Prop :=
  ∀ (i : Instr) (s t : State), exec i s = .next t →
    t.KEY = s.KEY ∧ t.bnnnMode = s.bnnnMode ∧ t.agenda = s.agenda ∧ t.untouched = s.untouched ∧
    (∀ r, t.reg r ≠ s.reg r → MayWrite i r) ∧
    (t.I ≠ s.I → (∃ nnn, i = .ldI nnn) ∨ (∃ x, i = .addI x ∨ i = .ldF x)) ∧
    (t.STACK ≠ s.STACK → ∃ nnn, i = .call nnn) ∧
    (t.SP ≠ s.SP → (∃ nnn, i = .call nnn) ∨ i = .ret) ∧
    (t.DT ≠ s.DT → ∃ x, i = .ldDtVx x) ∧ (t.ST ≠ s.ST → ∃ x, i = .ldStVx x) ∧
    (t.FB ≠ s.FB → i = .cls ∨ ∃ x y n, i = .drw x y n) ∧
    (t.mem ≠ s.mem → ∃ x, i = .ldB x ∨ i = .storeRegs x) ∧
    (t.drawCount ≠ s.drawCount ∨ t.drawQueue ≠ s.drawQueue → ∃ x nn, i = .rnd x nn) ∧
    (t.warnings ≠ s.warnings → (∃ nnn, i = .sys nnn ∨ i = .jpV0 nnn) ∨ ∃ op, i = .unrecognized op) ∧
    (t.FAULT ≠ s.FAULT → i = .ret ∨ (∃ nnn, i = .call nnn) ∨ (∃ x y n, i = .drw x y n) ∨
      ∃ x, i = .ldB x ∨ i = .storeRegs x ∨ i = .loadRegs x) ∧
    (t.pc = s.pc → t.FAULT.kind ≠ .none ∨ (∃ x, i = .ldVxK x ∧ s.KEY = 0#16 ∧ t = s) ∨
      (∃ nnn, (i = .jp nnn ∨ i = .call nnn) ∧ s.pc.toNat = nnn.toNat) ∨
      (∃ nnn, i = .jpV0 nnn ∧ s.bnnnMode = .jumpV0 ∧ s.pc.toNat = nnn.toNat + (s.reg 0).toNat) ∨
      (i = .ret ∧ ∃ (k : Nat) (h : k < 16), s.SP.val = k + 1 ∧ s.STACK[k] + 2#16 = s.pc))

/-- 95_test_vectors.md E1 (DOC00's property 1) and 10_state.md R25: an executed instruction that raises no fault advances `pc` by exactly 2,
a skip by 2 or 4, but for jump, call, return, the key wait and the jump of BNNN. BNNN is D12 (log 4), the popped address plus 2 D3 (log 14),
the key wait D28 (log 29). -/
def Obligations.PcAdvancesByTwoOrFour : Prop :=
  ∀ (i : Instr) (s t : State), s.FAULT.kind = .none → exec i s = .next t → t.FAULT.kind = .none →
    (¬ MovesPc i → t.pc = s.pc + 2#16) ∧
    (IsSkip i → t.pc = s.pc + 2#16 ∨ t.pc = s.pc + 4#16) ∧
    (∀ nnn, i = .jp nnn ∨ i = .call nnn → t.pc.toNat = nnn.toNat) ∧
    (i = .ret → ∃ (k : Nat) (h : k < 16), s.SP.val = k + 1 ∧ t.pc = s.STACK[k] + 2#16) ∧
    (∀ x, i = .ldVxK x → t.pc = s.pc + 2#16 ∨ (t = s ∧ s.KEY = 0#16)) ∧
    (∀ nnn, i = .jpV0 nnn → t.pc = s.pc + 2#16 ∨ (s.bnnnMode = .jumpV0 ∧ t.pc.toNat = nnn.toNat + (s.reg 0).toNat))

/-- 10_state.md R37 (f), 20_memory.md R58 (D25, log 33): a byte below 0x200 changes only by `reset()` or by an executed FX33 or FX55;
`load()` never changes one. That an empty agenda means `step()` is log 2. -/
def Obligations.LowMemoryChangesOnlyByStores : Prop :=
  ∀ (s t : State) (a : Nat), s.mem.wf → step s = .next t → a < 0x200 → t.mem.read a ≠ s.mem.read a →
    (∃ rest, s.agenda = .reset :: rest) ∨
    ((s.agenda = [] ∨ ∃ rest, s.agenda = .step :: rest) ∧ s.FAULT.kind = .none ∧
      ∃ x, ∃ op, s.fetch = some op ∧ (decodeWord op = .ldB x ∨ decodeWord op = .storeRegs x))

/-- 60_exceptions.md R212 (D21, log 6): a step emits at most one warning, and the warnings emitted before have no effect on it. -/
def Obligations.WarningsHaveNoEffect : Prop :=
  ∀ (s t : State) (before : List Word), step s = .next t →
    ∃ events, events.length ≤ 1 ∧ t.warnings = events ++ s.warnings ∧
      step { s with warnings := before } = .next { t with warnings := events ++ before }

/-- The model's own: two memories in canonical form that read alike at every address are the same data. -/
def Obligations.CanonicalMemoriesThatReadAlikeAreEqual : Prop :=
  ∀ m m' : Memory, m.wf → m'.wf → (∀ a, m.read a = m'.read a) → m = m'
end

