-- ==== Sys2Proof/Laws/PerInstr.lean ====
section
/-! SUPPORT. The families of statements made per instruction (LAWS.json): one lemma per constructor of `Instr`. -/

namespace Sys2Proof.Laws.FamilyDigit

/-- The first hex digit of an instruction's pattern in R81; for the catch-all row, that of the word itself. -/
def digit : Instr → Nat
  | .cls | .ret | .sys _ => 0x0
  | .jp _ => 0x1
  | .call _ => 0x2
  | .seImm _ _ => 0x3
  | .sneImm _ _ => 0x4
  | .seReg _ _ => 0x5
  | .ldImm _ _ => 0x6
  | .addImm _ _ => 0x7
  | .ldReg _ _ | .orReg _ _ | .andReg _ _ | .xorReg _ _ | .addReg _ _ | .subReg _ _ | .shr _ | .subnReg _ _ | .shl _ => 0x8
  | .sneReg _ _ => 0x9
  | .ldI _ => 0xA
  | .jpV0 _ => 0xB
  | .rnd _ _ => 0xC
  | .drw _ _ _ => 0xD
  | .skp _ | .sknp _ => 0xE
  | .ldVxDt _ | .ldVxK _ | .ldDtVx _ | .ldStVx _ | .addI _ | .ldF _ | .ldB _ | .storeRegs _ | .loadRegs _ => 0xF
  | .unrecognized op => slice op 15 12

/-- The encoded word's dispatch key, `op[15:12]`, is the family of the instruction's row (R73, R81). -/
def Statement (i : Instr) : Prop := slice (encode i) 15 12 = digit i

theorem wordNNN_family (f nnn : Nat) (hf : f < 16) (hn : nnn < 4096) : slice (wordNNN f nnn) 15 12 = f := by
  simp only [slice, wordNNN, BitVec.toNat_ofNat]
  omega

theorem wordXNN_family (f x nn : Nat) (hf : f < 16) (hx : x < 16) (hn : nn < 256) : slice (wordXNN f x nn) 15 12 = f := by
  simp only [slice, wordXNN, BitVec.toNat_ofNat]
  omega

theorem wordXYN_family (f x y n : Nat) (hf : f < 16) (hx : x < 16) (hy : y < 16) (hn : n < 16) :
    slice (wordXYN f x y n) 15 12 = f := by
  simp only [slice, wordXYN, BitVec.toNat_ofNat]
  omega

theorem cls : Statement .cls := rfl
theorem ret : Statement .ret := rfl
theorem sys (nnn : BitVec 12) : Statement (.sys nnn) := wordNNN_family _ _ (by decide) nnn.isLt
theorem jp (nnn : BitVec 12) : Statement (.jp nnn) := wordNNN_family _ _ (by decide) nnn.isLt
theorem call (nnn : BitVec 12) : Statement (.call nnn) := wordNNN_family _ _ (by decide) nnn.isLt
theorem seImm (x : Reg) (nn : Byte) : Statement (.seImm x nn) := wordXNN_family _ _ _ (by decide) x.isLt nn.isLt
theorem sneImm (x : Reg) (nn : Byte) : Statement (.sneImm x nn) := wordXNN_family _ _ _ (by decide) x.isLt nn.isLt
theorem seReg (x y : Reg) : Statement (.seReg x y) := wordXYN_family _ _ _ _ (by decide) x.isLt y.isLt (by decide)
theorem ldImm (x : Reg) (nn : Byte) : Statement (.ldImm x nn) := wordXNN_family _ _ _ (by decide) x.isLt nn.isLt
theorem addImm (x : Reg) (nn : Byte) : Statement (.addImm x nn) := wordXNN_family _ _ _ (by decide) x.isLt nn.isLt
theorem ldReg (x y : Reg) : Statement (.ldReg x y) := wordXYN_family _ _ _ _ (by decide) x.isLt y.isLt (by decide)
theorem orReg (x y : Reg) : Statement (.orReg x y) := wordXYN_family _ _ _ _ (by decide) x.isLt y.isLt (by decide)
theorem andReg (x y : Reg) : Statement (.andReg x y) := wordXYN_family _ _ _ _ (by decide) x.isLt y.isLt (by decide)
theorem xorReg (x y : Reg) : Statement (.xorReg x y) := wordXYN_family _ _ _ _ (by decide) x.isLt y.isLt (by decide)
theorem addReg (x y : Reg) : Statement (.addReg x y) := wordXYN_family _ _ _ _ (by decide) x.isLt y.isLt (by decide)
theorem subReg (x y : Reg) : Statement (.subReg x y) := wordXYN_family _ _ _ _ (by decide) x.isLt y.isLt (by decide)
theorem shr (x : Reg) : Statement (.shr x) := wordXYN_family _ _ _ _ (by decide) x.isLt (by decide) (by decide)
theorem subnReg (x y : Reg) : Statement (.subnReg x y) := wordXYN_family _ _ _ _ (by decide) x.isLt y.isLt (by decide)
theorem shl (x : Reg) : Statement (.shl x) := wordXYN_family _ _ _ _ (by decide) x.isLt (by decide) (by decide)
theorem sneReg (x y : Reg) : Statement (.sneReg x y) := wordXYN_family _ _ _ _ (by decide) x.isLt y.isLt (by decide)
theorem ldI (nnn : BitVec 12) : Statement (.ldI nnn) := wordNNN_family _ _ (by decide) nnn.isLt
theorem jpV0 (nnn : BitVec 12) : Statement (.jpV0 nnn) := wordNNN_family _ _ (by decide) nnn.isLt
theorem rnd (x : Reg) (nn : Byte) : Statement (.rnd x nn) := wordXNN_family _ _ _ (by decide) x.isLt nn.isLt
theorem drw (x y : Reg) (n : BitVec 4) : Statement (.drw x y n) := wordXYN_family _ _ _ _ (by decide) x.isLt y.isLt n.isLt
theorem skp (x : Reg) : Statement (.skp x) := wordXNN_family _ _ _ (by decide) x.isLt (by decide)
theorem sknp (x : Reg) : Statement (.sknp x) := wordXNN_family _ _ _ (by decide) x.isLt (by decide)
theorem ldVxDt (x : Reg) : Statement (.ldVxDt x) := wordXNN_family _ _ _ (by decide) x.isLt (by decide)
theorem ldVxK (x : Reg) : Statement (.ldVxK x) := wordXNN_family _ _ _ (by decide) x.isLt (by decide)
theorem ldDtVx (x : Reg) : Statement (.ldDtVx x) := wordXNN_family _ _ _ (by decide) x.isLt (by decide)
theorem ldStVx (x : Reg) : Statement (.ldStVx x) := wordXNN_family _ _ _ (by decide) x.isLt (by decide)
theorem addI (x : Reg) : Statement (.addI x) := wordXNN_family _ _ _ (by decide) x.isLt (by decide)
theorem ldF (x : Reg) : Statement (.ldF x) := wordXNN_family _ _ _ (by decide) x.isLt (by decide)
theorem ldB (x : Reg) : Statement (.ldB x) := wordXNN_family _ _ _ (by decide) x.isLt (by decide)
theorem storeRegs (x : Reg) : Statement (.storeRegs x) := wordXNN_family _ _ _ (by decide) x.isLt (by decide)
theorem loadRegs (x : Reg) : Statement (.loadRegs x) := wordXNN_family _ _ _ (by decide) x.isLt (by decide)
theorem unrecognized (op : Word) : Statement (.unrecognized op) := rfl

end Sys2Proof.Laws.FamilyDigit
end

