-- ==== Sys2Proof/Laws/Encode.lean ====
section
/-! SUPPORT. The fields of the words the encoder builds, format by format (spec 30_encoding.md R71): each field comes back as it went
in; and a word's two bytes make the word. -/

namespace Sys2Proof.Laws

theorem fieldNNN_wordNNN (f : Nat) (nnn : BitVec 12) : fieldNNN (wordNNN f nnn.toNat) = nnn := by
  apply BitVec.eq_of_toNat_eq
  have := nnn.isLt
  simp only [fieldNNN, slice, wordNNN, BitVec.toNat_ofNat]
  omega

theorem fieldX_wordXNN (f : Nat) (x : Reg) (nn : Nat) (h : nn < 256) : fieldX (wordXNN f x nn) = x := by
  apply Fin.ext
  have := x.isLt
  simp only [fieldX, slice, wordXNN, BitVec.toNat_ofNat, Fin.ofNat]
  omega

theorem fieldNN_wordXNN (f : Nat) (x : Reg) (nn : Byte) : fieldNN (wordXNN f x nn.toNat) = nn := by
  apply BitVec.eq_of_toNat_eq
  have := nn.isLt
  simp only [fieldNN, slice, wordXNN, BitVec.toNat_ofNat]
  omega

theorem lowByte_wordXNN (f : Nat) (x : Reg) (nn : Nat) (h : nn < 256) : slice (wordXNN f x nn) 7 0 = nn := by
  simp only [slice, wordXNN, BitVec.toNat_ofNat]
  omega

theorem fieldX_wordXYN (f : Nat) (x : Reg) (y n : Nat) (hy : y < 16) (hn : n < 16) : fieldX (wordXYN f x y n) = x := by
  apply Fin.ext
  have := x.isLt
  simp only [fieldX, slice, wordXYN, BitVec.toNat_ofNat, Fin.ofNat]
  omega

theorem fieldY_wordXYN (f : Nat) (x y : Reg) (n : Nat) (hn : n < 16) : fieldY (wordXYN f x y n) = y := by
  apply Fin.ext
  have := y.isLt
  simp only [fieldY, slice, wordXYN, BitVec.toNat_ofNat, Fin.ofNat]
  omega

theorem fieldN_wordXYN (f : Nat) (x y : Reg) (n : BitVec 4) : fieldN (wordXYN f x y n.toNat) = n := by
  apply BitVec.eq_of_toNat_eq
  have := n.isLt
  simp only [fieldN, slice, wordXYN, BitVec.toNat_ofNat]
  omega

theorem lowNibble_wordXYN (f : Nat) (x : Reg) (y n : Nat) (hn : n < 16) : slice (wordXYN f x y n) 3 0 = n := by
  simp only [slice, wordXYN, BitVec.toNat_ofNat]
  omega

/-- The two bytes of a word, high byte first, make the word (R57). -/
theorem wordOfBytes_bytes (op : Word) : wordOfBytes (highByte op) (lowByte op) = op := by
  apply BitVec.eq_of_toNat_eq
  have := op.isLt
  simp only [wordOfBytes, highByte, lowByte, slice, BitVec.toNat_ofNat]
  omega

/-- `(high << 8) | low` (R51) is the two bytes side by side. -/
theorem wordOfBytes_eq_append (hi lo : Byte) : wordOfBytes hi lo = hi ++ lo := by
  apply BitVec.eq_of_toNat_eq
  have h := hi.isLt
  have l := lo.isLt
  have : (hi ++ lo).toNat = hi.toNat <<< 8 ||| lo.toNat := BitVec.toNat_append hi lo
  rw [this, ← Nat.shiftLeft_add_eq_or_of_lt l]
  simp only [wordOfBytes, BitVec.toNat_ofNat, Nat.shiftLeft_eq]
  omega

end Sys2Proof.Laws
end

