-- ==== Sys2Proof/Laws/State.lean ====
section
/-! SUPPORT. What each update of the state does to each field, one lemma per field per update, so that no later proof unfolds an
update; and what reading one register gives after them. -/

namespace Sys2Proof.Machine

/-! ### writeReg -/

@[simp] theorem State.writeReg_mem (s : State) (r : Reg) (v : Byte) : (s.writeReg r v).mem = s.mem := rfl
@[simp] theorem State.writeReg_V (s : State) (r : Reg) (v : Byte) : (s.writeReg r v).V = s.V.set r v := rfl
@[simp] theorem State.writeReg_I (s : State) (r : Reg) (v : Byte) : (s.writeReg r v).I = s.I := rfl
@[simp] theorem State.writeReg_pc (s : State) (r : Reg) (v : Byte) : (s.writeReg r v).pc = s.pc := rfl
@[simp] theorem State.writeReg_STACK (s : State) (r : Reg) (v : Byte) : (s.writeReg r v).STACK = s.STACK := rfl
@[simp] theorem State.writeReg_SP (s : State) (r : Reg) (v : Byte) : (s.writeReg r v).SP = s.SP := rfl
@[simp] theorem State.writeReg_DT (s : State) (r : Reg) (v : Byte) : (s.writeReg r v).DT = s.DT := rfl
@[simp] theorem State.writeReg_ST (s : State) (r : Reg) (v : Byte) : (s.writeReg r v).ST = s.ST := rfl
@[simp] theorem State.writeReg_FB (s : State) (r : Reg) (v : Byte) : (s.writeReg r v).FB = s.FB := rfl
@[simp] theorem State.writeReg_KEY (s : State) (r : Reg) (v : Byte) : (s.writeReg r v).KEY = s.KEY := rfl
@[simp] theorem State.writeReg_FAULT (s : State) (r : Reg) (v : Byte) : (s.writeReg r v).FAULT = s.FAULT := rfl
@[simp] theorem State.writeReg_bnnnMode (s : State) (r : Reg) (v : Byte) : (s.writeReg r v).bnnnMode = s.bnnnMode := rfl
@[simp] theorem State.writeReg_agenda (s : State) (r : Reg) (v : Byte) : (s.writeReg r v).agenda = s.agenda := rfl
@[simp] theorem State.writeReg_drawQueue (s : State) (r : Reg) (v : Byte) : (s.writeReg r v).drawQueue = s.drawQueue := rfl
@[simp] theorem State.writeReg_drawCount (s : State) (r : Reg) (v : Byte) : (s.writeReg r v).drawCount = s.drawCount := rfl
@[simp] theorem State.writeReg_warnings (s : State) (r : Reg) (v : Byte) : (s.writeReg r v).warnings = s.warnings := rfl
@[simp] theorem State.writeReg_untouched (s : State) (r : Reg) (v : Byte) : (s.writeReg r v).untouched = s.untouched := rfl

/-! ### setPc -/

@[simp] theorem State.setPc_mem (s : State) (v : Word) : (s.setPc v).mem = s.mem := rfl
@[simp] theorem State.setPc_V (s : State) (v : Word) : (s.setPc v).V = s.V := rfl
@[simp] theorem State.setPc_I (s : State) (v : Word) : (s.setPc v).I = s.I := rfl
@[simp] theorem State.setPc_pc (s : State) (v : Word) : (s.setPc v).pc = v := rfl
@[simp] theorem State.setPc_STACK (s : State) (v : Word) : (s.setPc v).STACK = s.STACK := rfl
@[simp] theorem State.setPc_SP (s : State) (v : Word) : (s.setPc v).SP = s.SP := rfl
@[simp] theorem State.setPc_DT (s : State) (v : Word) : (s.setPc v).DT = s.DT := rfl
@[simp] theorem State.setPc_ST (s : State) (v : Word) : (s.setPc v).ST = s.ST := rfl
@[simp] theorem State.setPc_FB (s : State) (v : Word) : (s.setPc v).FB = s.FB := rfl
@[simp] theorem State.setPc_KEY (s : State) (v : Word) : (s.setPc v).KEY = s.KEY := rfl
@[simp] theorem State.setPc_FAULT (s : State) (v : Word) : (s.setPc v).FAULT = s.FAULT := rfl
@[simp] theorem State.setPc_bnnnMode (s : State) (v : Word) : (s.setPc v).bnnnMode = s.bnnnMode := rfl
@[simp] theorem State.setPc_agenda (s : State) (v : Word) : (s.setPc v).agenda = s.agenda := rfl
@[simp] theorem State.setPc_drawQueue (s : State) (v : Word) : (s.setPc v).drawQueue = s.drawQueue := rfl
@[simp] theorem State.setPc_drawCount (s : State) (v : Word) : (s.setPc v).drawCount = s.drawCount := rfl
@[simp] theorem State.setPc_warnings (s : State) (v : Word) : (s.setPc v).warnings = s.warnings := rfl
@[simp] theorem State.setPc_untouched (s : State) (v : Word) : (s.setPc v).untouched = s.untouched := rfl

/-! ### advance -/

@[simp] theorem State.advance_mem (s : State) : (s.advance).mem = s.mem := rfl
@[simp] theorem State.advance_V (s : State) : (s.advance).V = s.V := rfl
@[simp] theorem State.advance_I (s : State) : (s.advance).I = s.I := rfl
@[simp] theorem State.advance_pc (s : State) : (s.advance).pc = s.pc + 2#16 := rfl
@[simp] theorem State.advance_STACK (s : State) : (s.advance).STACK = s.STACK := rfl
@[simp] theorem State.advance_SP (s : State) : (s.advance).SP = s.SP := rfl
@[simp] theorem State.advance_DT (s : State) : (s.advance).DT = s.DT := rfl
@[simp] theorem State.advance_ST (s : State) : (s.advance).ST = s.ST := rfl
@[simp] theorem State.advance_FB (s : State) : (s.advance).FB = s.FB := rfl
@[simp] theorem State.advance_KEY (s : State) : (s.advance).KEY = s.KEY := rfl
@[simp] theorem State.advance_FAULT (s : State) : (s.advance).FAULT = s.FAULT := rfl
@[simp] theorem State.advance_bnnnMode (s : State) : (s.advance).bnnnMode = s.bnnnMode := rfl
@[simp] theorem State.advance_agenda (s : State) : (s.advance).agenda = s.agenda := rfl
@[simp] theorem State.advance_drawQueue (s : State) : (s.advance).drawQueue = s.drawQueue := rfl
@[simp] theorem State.advance_drawCount (s : State) : (s.advance).drawCount = s.drawCount := rfl
@[simp] theorem State.advance_warnings (s : State) : (s.advance).warnings = s.warnings := rfl
@[simp] theorem State.advance_untouched (s : State) : (s.advance).untouched = s.untouched := rfl

/-! ### skipIf -/

@[simp] theorem State.skipIf_mem (s : State) (c : Bool) : (s.skipIf c).mem = s.mem := rfl
@[simp] theorem State.skipIf_V (s : State) (c : Bool) : (s.skipIf c).V = s.V := rfl
@[simp] theorem State.skipIf_I (s : State) (c : Bool) : (s.skipIf c).I = s.I := rfl
@[simp] theorem State.skipIf_pc (s : State) (c : Bool) : (s.skipIf c).pc = s.pc + (if c then 4#16 else 2#16) := rfl
@[simp] theorem State.skipIf_STACK (s : State) (c : Bool) : (s.skipIf c).STACK = s.STACK := rfl
@[simp] theorem State.skipIf_SP (s : State) (c : Bool) : (s.skipIf c).SP = s.SP := rfl
@[simp] theorem State.skipIf_DT (s : State) (c : Bool) : (s.skipIf c).DT = s.DT := rfl
@[simp] theorem State.skipIf_ST (s : State) (c : Bool) : (s.skipIf c).ST = s.ST := rfl
@[simp] theorem State.skipIf_FB (s : State) (c : Bool) : (s.skipIf c).FB = s.FB := rfl
@[simp] theorem State.skipIf_KEY (s : State) (c : Bool) : (s.skipIf c).KEY = s.KEY := rfl
@[simp] theorem State.skipIf_FAULT (s : State) (c : Bool) : (s.skipIf c).FAULT = s.FAULT := rfl
@[simp] theorem State.skipIf_bnnnMode (s : State) (c : Bool) : (s.skipIf c).bnnnMode = s.bnnnMode := rfl
@[simp] theorem State.skipIf_agenda (s : State) (c : Bool) : (s.skipIf c).agenda = s.agenda := rfl
@[simp] theorem State.skipIf_drawQueue (s : State) (c : Bool) : (s.skipIf c).drawQueue = s.drawQueue := rfl
@[simp] theorem State.skipIf_drawCount (s : State) (c : Bool) : (s.skipIf c).drawCount = s.drawCount := rfl
@[simp] theorem State.skipIf_warnings (s : State) (c : Bool) : (s.skipIf c).warnings = s.warnings := rfl
@[simp] theorem State.skipIf_untouched (s : State) (c : Bool) : (s.skipIf c).untouched = s.untouched := rfl

/-! ### setI -/

@[simp] theorem State.setI_mem (s : State) (v : Word) : (s.setI v).mem = s.mem := rfl
@[simp] theorem State.setI_V (s : State) (v : Word) : (s.setI v).V = s.V := rfl
@[simp] theorem State.setI_I (s : State) (v : Word) : (s.setI v).I = v := rfl
@[simp] theorem State.setI_pc (s : State) (v : Word) : (s.setI v).pc = s.pc := rfl
@[simp] theorem State.setI_STACK (s : State) (v : Word) : (s.setI v).STACK = s.STACK := rfl
@[simp] theorem State.setI_SP (s : State) (v : Word) : (s.setI v).SP = s.SP := rfl
@[simp] theorem State.setI_DT (s : State) (v : Word) : (s.setI v).DT = s.DT := rfl
@[simp] theorem State.setI_ST (s : State) (v : Word) : (s.setI v).ST = s.ST := rfl
@[simp] theorem State.setI_FB (s : State) (v : Word) : (s.setI v).FB = s.FB := rfl
@[simp] theorem State.setI_KEY (s : State) (v : Word) : (s.setI v).KEY = s.KEY := rfl
@[simp] theorem State.setI_FAULT (s : State) (v : Word) : (s.setI v).FAULT = s.FAULT := rfl
@[simp] theorem State.setI_bnnnMode (s : State) (v : Word) : (s.setI v).bnnnMode = s.bnnnMode := rfl
@[simp] theorem State.setI_agenda (s : State) (v : Word) : (s.setI v).agenda = s.agenda := rfl
@[simp] theorem State.setI_drawQueue (s : State) (v : Word) : (s.setI v).drawQueue = s.drawQueue := rfl
@[simp] theorem State.setI_drawCount (s : State) (v : Word) : (s.setI v).drawCount = s.drawCount := rfl
@[simp] theorem State.setI_warnings (s : State) (v : Word) : (s.setI v).warnings = s.warnings := rfl
@[simp] theorem State.setI_untouched (s : State) (v : Word) : (s.setI v).untouched = s.untouched := rfl

/-! ### setDT -/

@[simp] theorem State.setDT_mem (s : State) (v : Byte) : (s.setDT v).mem = s.mem := rfl
@[simp] theorem State.setDT_V (s : State) (v : Byte) : (s.setDT v).V = s.V := rfl
@[simp] theorem State.setDT_I (s : State) (v : Byte) : (s.setDT v).I = s.I := rfl
@[simp] theorem State.setDT_pc (s : State) (v : Byte) : (s.setDT v).pc = s.pc := rfl
@[simp] theorem State.setDT_STACK (s : State) (v : Byte) : (s.setDT v).STACK = s.STACK := rfl
@[simp] theorem State.setDT_SP (s : State) (v : Byte) : (s.setDT v).SP = s.SP := rfl
@[simp] theorem State.setDT_DT (s : State) (v : Byte) : (s.setDT v).DT = v := rfl
@[simp] theorem State.setDT_ST (s : State) (v : Byte) : (s.setDT v).ST = s.ST := rfl
@[simp] theorem State.setDT_FB (s : State) (v : Byte) : (s.setDT v).FB = s.FB := rfl
@[simp] theorem State.setDT_KEY (s : State) (v : Byte) : (s.setDT v).KEY = s.KEY := rfl
@[simp] theorem State.setDT_FAULT (s : State) (v : Byte) : (s.setDT v).FAULT = s.FAULT := rfl
@[simp] theorem State.setDT_bnnnMode (s : State) (v : Byte) : (s.setDT v).bnnnMode = s.bnnnMode := rfl
@[simp] theorem State.setDT_agenda (s : State) (v : Byte) : (s.setDT v).agenda = s.agenda := rfl
@[simp] theorem State.setDT_drawQueue (s : State) (v : Byte) : (s.setDT v).drawQueue = s.drawQueue := rfl
@[simp] theorem State.setDT_drawCount (s : State) (v : Byte) : (s.setDT v).drawCount = s.drawCount := rfl
@[simp] theorem State.setDT_warnings (s : State) (v : Byte) : (s.setDT v).warnings = s.warnings := rfl
@[simp] theorem State.setDT_untouched (s : State) (v : Byte) : (s.setDT v).untouched = s.untouched := rfl

/-! ### setST -/

@[simp] theorem State.setST_mem (s : State) (v : Byte) : (s.setST v).mem = s.mem := rfl
@[simp] theorem State.setST_V (s : State) (v : Byte) : (s.setST v).V = s.V := rfl
@[simp] theorem State.setST_I (s : State) (v : Byte) : (s.setST v).I = s.I := rfl
@[simp] theorem State.setST_pc (s : State) (v : Byte) : (s.setST v).pc = s.pc := rfl
@[simp] theorem State.setST_STACK (s : State) (v : Byte) : (s.setST v).STACK = s.STACK := rfl
@[simp] theorem State.setST_SP (s : State) (v : Byte) : (s.setST v).SP = s.SP := rfl
@[simp] theorem State.setST_DT (s : State) (v : Byte) : (s.setST v).DT = s.DT := rfl
@[simp] theorem State.setST_ST (s : State) (v : Byte) : (s.setST v).ST = v := rfl
@[simp] theorem State.setST_FB (s : State) (v : Byte) : (s.setST v).FB = s.FB := rfl
@[simp] theorem State.setST_KEY (s : State) (v : Byte) : (s.setST v).KEY = s.KEY := rfl
@[simp] theorem State.setST_FAULT (s : State) (v : Byte) : (s.setST v).FAULT = s.FAULT := rfl
@[simp] theorem State.setST_bnnnMode (s : State) (v : Byte) : (s.setST v).bnnnMode = s.bnnnMode := rfl
@[simp] theorem State.setST_agenda (s : State) (v : Byte) : (s.setST v).agenda = s.agenda := rfl
@[simp] theorem State.setST_drawQueue (s : State) (v : Byte) : (s.setST v).drawQueue = s.drawQueue := rfl
@[simp] theorem State.setST_drawCount (s : State) (v : Byte) : (s.setST v).drawCount = s.drawCount := rfl
@[simp] theorem State.setST_warnings (s : State) (v : Byte) : (s.setST v).warnings = s.warnings := rfl
@[simp] theorem State.setST_untouched (s : State) (v : Byte) : (s.setST v).untouched = s.untouched := rfl

/-! ### setFB -/

@[simp] theorem State.setFB_mem (s : State) (v : Frame) : (s.setFB v).mem = s.mem := rfl
@[simp] theorem State.setFB_V (s : State) (v : Frame) : (s.setFB v).V = s.V := rfl
@[simp] theorem State.setFB_I (s : State) (v : Frame) : (s.setFB v).I = s.I := rfl
@[simp] theorem State.setFB_pc (s : State) (v : Frame) : (s.setFB v).pc = s.pc := rfl
@[simp] theorem State.setFB_STACK (s : State) (v : Frame) : (s.setFB v).STACK = s.STACK := rfl
@[simp] theorem State.setFB_SP (s : State) (v : Frame) : (s.setFB v).SP = s.SP := rfl
@[simp] theorem State.setFB_DT (s : State) (v : Frame) : (s.setFB v).DT = s.DT := rfl
@[simp] theorem State.setFB_ST (s : State) (v : Frame) : (s.setFB v).ST = s.ST := rfl
@[simp] theorem State.setFB_FB (s : State) (v : Frame) : (s.setFB v).FB = v := rfl
@[simp] theorem State.setFB_KEY (s : State) (v : Frame) : (s.setFB v).KEY = s.KEY := rfl
@[simp] theorem State.setFB_FAULT (s : State) (v : Frame) : (s.setFB v).FAULT = s.FAULT := rfl
@[simp] theorem State.setFB_bnnnMode (s : State) (v : Frame) : (s.setFB v).bnnnMode = s.bnnnMode := rfl
@[simp] theorem State.setFB_agenda (s : State) (v : Frame) : (s.setFB v).agenda = s.agenda := rfl
@[simp] theorem State.setFB_drawQueue (s : State) (v : Frame) : (s.setFB v).drawQueue = s.drawQueue := rfl
@[simp] theorem State.setFB_drawCount (s : State) (v : Frame) : (s.setFB v).drawCount = s.drawCount := rfl
@[simp] theorem State.setFB_warnings (s : State) (v : Frame) : (s.setFB v).warnings = s.warnings := rfl
@[simp] theorem State.setFB_untouched (s : State) (v : Frame) : (s.setFB v).untouched = s.untouched := rfl

/-! ### setMem -/

@[simp] theorem State.setMem_mem (s : State) (m : Memory) : (s.setMem m).mem = m := rfl
@[simp] theorem State.setMem_V (s : State) (m : Memory) : (s.setMem m).V = s.V := rfl
@[simp] theorem State.setMem_I (s : State) (m : Memory) : (s.setMem m).I = s.I := rfl
@[simp] theorem State.setMem_pc (s : State) (m : Memory) : (s.setMem m).pc = s.pc := rfl
@[simp] theorem State.setMem_STACK (s : State) (m : Memory) : (s.setMem m).STACK = s.STACK := rfl
@[simp] theorem State.setMem_SP (s : State) (m : Memory) : (s.setMem m).SP = s.SP := rfl
@[simp] theorem State.setMem_DT (s : State) (m : Memory) : (s.setMem m).DT = s.DT := rfl
@[simp] theorem State.setMem_ST (s : State) (m : Memory) : (s.setMem m).ST = s.ST := rfl
@[simp] theorem State.setMem_FB (s : State) (m : Memory) : (s.setMem m).FB = s.FB := rfl
@[simp] theorem State.setMem_KEY (s : State) (m : Memory) : (s.setMem m).KEY = s.KEY := rfl
@[simp] theorem State.setMem_FAULT (s : State) (m : Memory) : (s.setMem m).FAULT = s.FAULT := rfl
@[simp] theorem State.setMem_bnnnMode (s : State) (m : Memory) : (s.setMem m).bnnnMode = s.bnnnMode := rfl
@[simp] theorem State.setMem_agenda (s : State) (m : Memory) : (s.setMem m).agenda = s.agenda := rfl
@[simp] theorem State.setMem_drawQueue (s : State) (m : Memory) : (s.setMem m).drawQueue = s.drawQueue := rfl
@[simp] theorem State.setMem_drawCount (s : State) (m : Memory) : (s.setMem m).drawCount = s.drawCount := rfl
@[simp] theorem State.setMem_warnings (s : State) (m : Memory) : (s.setMem m).warnings = s.warnings := rfl
@[simp] theorem State.setMem_untouched (s : State) (m : Memory) : (s.setMem m).untouched = s.untouched := rfl

/-! ### warn -/

@[simp] theorem State.warn_mem (s : State) (op : Word) : (s.warn op).mem = s.mem := rfl
@[simp] theorem State.warn_V (s : State) (op : Word) : (s.warn op).V = s.V := rfl
@[simp] theorem State.warn_I (s : State) (op : Word) : (s.warn op).I = s.I := rfl
@[simp] theorem State.warn_pc (s : State) (op : Word) : (s.warn op).pc = s.pc := rfl
@[simp] theorem State.warn_STACK (s : State) (op : Word) : (s.warn op).STACK = s.STACK := rfl
@[simp] theorem State.warn_SP (s : State) (op : Word) : (s.warn op).SP = s.SP := rfl
@[simp] theorem State.warn_DT (s : State) (op : Word) : (s.warn op).DT = s.DT := rfl
@[simp] theorem State.warn_ST (s : State) (op : Word) : (s.warn op).ST = s.ST := rfl
@[simp] theorem State.warn_FB (s : State) (op : Word) : (s.warn op).FB = s.FB := rfl
@[simp] theorem State.warn_KEY (s : State) (op : Word) : (s.warn op).KEY = s.KEY := rfl
@[simp] theorem State.warn_FAULT (s : State) (op : Word) : (s.warn op).FAULT = s.FAULT := rfl
@[simp] theorem State.warn_bnnnMode (s : State) (op : Word) : (s.warn op).bnnnMode = s.bnnnMode := rfl
@[simp] theorem State.warn_agenda (s : State) (op : Word) : (s.warn op).agenda = s.agenda := rfl
@[simp] theorem State.warn_drawQueue (s : State) (op : Word) : (s.warn op).drawQueue = s.drawQueue := rfl
@[simp] theorem State.warn_drawCount (s : State) (op : Word) : (s.warn op).drawCount = s.drawCount := rfl
@[simp] theorem State.warn_warnings (s : State) (op : Word) : (s.warn op).warnings = op :: s.warnings := rfl
@[simp] theorem State.warn_untouched (s : State) (op : Word) : (s.warn op).untouched = s.untouched := rfl

/-! ### consumeDraw -/

@[simp] theorem State.consumeDraw_mem (s : State) : (s.consumeDraw).mem = s.mem := rfl
@[simp] theorem State.consumeDraw_V (s : State) : (s.consumeDraw).V = s.V := rfl
@[simp] theorem State.consumeDraw_I (s : State) : (s.consumeDraw).I = s.I := rfl
@[simp] theorem State.consumeDraw_pc (s : State) : (s.consumeDraw).pc = s.pc := rfl
@[simp] theorem State.consumeDraw_STACK (s : State) : (s.consumeDraw).STACK = s.STACK := rfl
@[simp] theorem State.consumeDraw_SP (s : State) : (s.consumeDraw).SP = s.SP := rfl
@[simp] theorem State.consumeDraw_DT (s : State) : (s.consumeDraw).DT = s.DT := rfl
@[simp] theorem State.consumeDraw_ST (s : State) : (s.consumeDraw).ST = s.ST := rfl
@[simp] theorem State.consumeDraw_FB (s : State) : (s.consumeDraw).FB = s.FB := rfl
@[simp] theorem State.consumeDraw_KEY (s : State) : (s.consumeDraw).KEY = s.KEY := rfl
@[simp] theorem State.consumeDraw_FAULT (s : State) : (s.consumeDraw).FAULT = s.FAULT := rfl
@[simp] theorem State.consumeDraw_bnnnMode (s : State) : (s.consumeDraw).bnnnMode = s.bnnnMode := rfl
@[simp] theorem State.consumeDraw_agenda (s : State) : (s.consumeDraw).agenda = s.agenda := rfl
@[simp] theorem State.consumeDraw_drawQueue (s : State) : (s.consumeDraw).drawQueue = s.drawQueue.tail := rfl
@[simp] theorem State.consumeDraw_drawCount (s : State) : (s.consumeDraw).drawCount = s.drawCount + 1 := rfl
@[simp] theorem State.consumeDraw_warnings (s : State) : (s.consumeDraw).warnings = s.warnings := rfl
@[simp] theorem State.consumeDraw_untouched (s : State) : (s.consumeDraw).untouched = s.untouched := rfl

/-! ### raise -/

@[simp] theorem State.raise_mem (s : State) (k : FaultKind) (a : Nat) : (s.raise k a).mem = s.mem := rfl
@[simp] theorem State.raise_V (s : State) (k : FaultKind) (a : Nat) : (s.raise k a).V = s.V := rfl
@[simp] theorem State.raise_I (s : State) (k : FaultKind) (a : Nat) : (s.raise k a).I = s.I := rfl
@[simp] theorem State.raise_pc (s : State) (k : FaultKind) (a : Nat) : (s.raise k a).pc = s.pc := rfl
@[simp] theorem State.raise_STACK (s : State) (k : FaultKind) (a : Nat) : (s.raise k a).STACK = s.STACK := rfl
@[simp] theorem State.raise_SP (s : State) (k : FaultKind) (a : Nat) : (s.raise k a).SP = s.SP := rfl
@[simp] theorem State.raise_DT (s : State) (k : FaultKind) (a : Nat) : (s.raise k a).DT = s.DT := rfl
@[simp] theorem State.raise_ST (s : State) (k : FaultKind) (a : Nat) : (s.raise k a).ST = s.ST := rfl
@[simp] theorem State.raise_FB (s : State) (k : FaultKind) (a : Nat) : (s.raise k a).FB = s.FB := rfl
@[simp] theorem State.raise_KEY (s : State) (k : FaultKind) (a : Nat) : (s.raise k a).KEY = s.KEY := rfl
@[simp] theorem State.raise_FAULT (s : State) (k : FaultKind) (a : Nat) : (s.raise k a).FAULT = { kind := k, addr := if k = .addressOutOfBounds then BitVec.ofNat 16 a else 0x0000#16 } := rfl
@[simp] theorem State.raise_bnnnMode (s : State) (k : FaultKind) (a : Nat) : (s.raise k a).bnnnMode = s.bnnnMode := rfl
@[simp] theorem State.raise_agenda (s : State) (k : FaultKind) (a : Nat) : (s.raise k a).agenda = s.agenda := rfl
@[simp] theorem State.raise_drawQueue (s : State) (k : FaultKind) (a : Nat) : (s.raise k a).drawQueue = s.drawQueue := rfl
@[simp] theorem State.raise_drawCount (s : State) (k : FaultKind) (a : Nat) : (s.raise k a).drawCount = s.drawCount := rfl
@[simp] theorem State.raise_warnings (s : State) (k : FaultKind) (a : Nat) : (s.raise k a).warnings = s.warnings := rfl
@[simp] theorem State.raise_untouched (s : State) (k : FaultKind) (a : Nat) : (s.raise k a).untouched = s.untouched := rfl

/-! ### writeRegBlock -/

@[simp] theorem State.writeRegBlock_mem (s : State) (bs : List Byte) : (s.writeRegBlock bs).mem = s.mem := rfl
@[simp] theorem State.writeRegBlock_V (s : State) (bs : List Byte) : (s.writeRegBlock bs).V = writeBlock s.V 0 bs := rfl
@[simp] theorem State.writeRegBlock_I (s : State) (bs : List Byte) : (s.writeRegBlock bs).I = s.I := rfl
@[simp] theorem State.writeRegBlock_pc (s : State) (bs : List Byte) : (s.writeRegBlock bs).pc = s.pc := rfl
@[simp] theorem State.writeRegBlock_STACK (s : State) (bs : List Byte) : (s.writeRegBlock bs).STACK = s.STACK := rfl
@[simp] theorem State.writeRegBlock_SP (s : State) (bs : List Byte) : (s.writeRegBlock bs).SP = s.SP := rfl
@[simp] theorem State.writeRegBlock_DT (s : State) (bs : List Byte) : (s.writeRegBlock bs).DT = s.DT := rfl
@[simp] theorem State.writeRegBlock_ST (s : State) (bs : List Byte) : (s.writeRegBlock bs).ST = s.ST := rfl
@[simp] theorem State.writeRegBlock_FB (s : State) (bs : List Byte) : (s.writeRegBlock bs).FB = s.FB := rfl
@[simp] theorem State.writeRegBlock_KEY (s : State) (bs : List Byte) : (s.writeRegBlock bs).KEY = s.KEY := rfl
@[simp] theorem State.writeRegBlock_FAULT (s : State) (bs : List Byte) : (s.writeRegBlock bs).FAULT = s.FAULT := rfl
@[simp] theorem State.writeRegBlock_bnnnMode (s : State) (bs : List Byte) : (s.writeRegBlock bs).bnnnMode = s.bnnnMode := rfl
@[simp] theorem State.writeRegBlock_agenda (s : State) (bs : List Byte) : (s.writeRegBlock bs).agenda = s.agenda := rfl
@[simp] theorem State.writeRegBlock_drawQueue (s : State) (bs : List Byte) : (s.writeRegBlock bs).drawQueue = s.drawQueue := rfl
@[simp] theorem State.writeRegBlock_drawCount (s : State) (bs : List Byte) : (s.writeRegBlock bs).drawCount = s.drawCount := rfl
@[simp] theorem State.writeRegBlock_warnings (s : State) (bs : List Byte) : (s.writeRegBlock bs).warnings = s.warnings := rfl
@[simp] theorem State.writeRegBlock_untouched (s : State) (bs : List Byte) : (s.writeRegBlock bs).untouched = s.untouched := rfl

/-! ### tickTimers -/

@[simp] theorem State.tickTimers_mem (s : State) : (s.tickTimers).mem = s.mem := rfl
@[simp] theorem State.tickTimers_V (s : State) : (s.tickTimers).V = s.V := rfl
@[simp] theorem State.tickTimers_I (s : State) : (s.tickTimers).I = s.I := rfl
@[simp] theorem State.tickTimers_pc (s : State) : (s.tickTimers).pc = s.pc := rfl
@[simp] theorem State.tickTimers_STACK (s : State) : (s.tickTimers).STACK = s.STACK := rfl
@[simp] theorem State.tickTimers_SP (s : State) : (s.tickTimers).SP = s.SP := rfl
@[simp] theorem State.tickTimers_DT (s : State) : (s.tickTimers).DT = if s.DT = 0x00#8 then s.DT else s.DT - 1#8 := rfl
@[simp] theorem State.tickTimers_ST (s : State) : (s.tickTimers).ST = if s.ST = 0x00#8 then s.ST else s.ST - 1#8 := rfl
@[simp] theorem State.tickTimers_FB (s : State) : (s.tickTimers).FB = s.FB := rfl
@[simp] theorem State.tickTimers_KEY (s : State) : (s.tickTimers).KEY = s.KEY := rfl
@[simp] theorem State.tickTimers_FAULT (s : State) : (s.tickTimers).FAULT = s.FAULT := rfl
@[simp] theorem State.tickTimers_bnnnMode (s : State) : (s.tickTimers).bnnnMode = s.bnnnMode := rfl
@[simp] theorem State.tickTimers_agenda (s : State) : (s.tickTimers).agenda = s.agenda := rfl
@[simp] theorem State.tickTimers_drawQueue (s : State) : (s.tickTimers).drawQueue = s.drawQueue := rfl
@[simp] theorem State.tickTimers_drawCount (s : State) : (s.tickTimers).drawCount = s.drawCount := rfl
@[simp] theorem State.tickTimers_warnings (s : State) : (s.tickTimers).warnings = s.warnings := rfl
@[simp] theorem State.tickTimers_untouched (s : State) : (s.tickTimers).untouched = (s.untouched && s.DT == 0x00#8 && s.ST == 0x00#8) := rfl

/-! ### setKey -/

@[simp] theorem State.setKey_mem (s : State) (k : Fin 16) (b : Bool) : (s.setKey k b).mem = s.mem := rfl
@[simp] theorem State.setKey_V (s : State) (k : Fin 16) (b : Bool) : (s.setKey k b).V = s.V := rfl
@[simp] theorem State.setKey_I (s : State) (k : Fin 16) (b : Bool) : (s.setKey k b).I = s.I := rfl
@[simp] theorem State.setKey_pc (s : State) (k : Fin 16) (b : Bool) : (s.setKey k b).pc = s.pc := rfl
@[simp] theorem State.setKey_STACK (s : State) (k : Fin 16) (b : Bool) : (s.setKey k b).STACK = s.STACK := rfl
@[simp] theorem State.setKey_SP (s : State) (k : Fin 16) (b : Bool) : (s.setKey k b).SP = s.SP := rfl
@[simp] theorem State.setKey_DT (s : State) (k : Fin 16) (b : Bool) : (s.setKey k b).DT = s.DT := rfl
@[simp] theorem State.setKey_ST (s : State) (k : Fin 16) (b : Bool) : (s.setKey k b).ST = s.ST := rfl
@[simp] theorem State.setKey_FB (s : State) (k : Fin 16) (b : Bool) : (s.setKey k b).FB = s.FB := rfl
@[simp] theorem State.setKey_KEY (s : State) (k : Fin 16) (b : Bool) : (s.setKey k b).KEY = if b then s.KEY ||| BitVec.twoPow 16 k else s.KEY &&& ~~~ BitVec.twoPow 16 k := rfl
@[simp] theorem State.setKey_FAULT (s : State) (k : Fin 16) (b : Bool) : (s.setKey k b).FAULT = s.FAULT := rfl
@[simp] theorem State.setKey_bnnnMode (s : State) (k : Fin 16) (b : Bool) : (s.setKey k b).bnnnMode = s.bnnnMode := rfl
@[simp] theorem State.setKey_agenda (s : State) (k : Fin 16) (b : Bool) : (s.setKey k b).agenda = s.agenda := rfl
@[simp] theorem State.setKey_drawQueue (s : State) (k : Fin 16) (b : Bool) : (s.setKey k b).drawQueue = s.drawQueue := rfl
@[simp] theorem State.setKey_drawCount (s : State) (k : Fin 16) (b : Bool) : (s.setKey k b).drawCount = s.drawCount := rfl
@[simp] theorem State.setKey_warnings (s : State) (k : Fin 16) (b : Bool) : (s.setKey k b).warnings = s.warnings := rfl
@[simp] theorem State.setKey_untouched (s : State) (k : Fin 16) (b : Bool) : (s.setKey k b).untouched = (s.untouched && s.pressed k == b) := rfl

/-! ### touch -/

@[simp] theorem State.touch_mem (s : State) : s.touch.mem = s.mem := rfl
@[simp] theorem State.touch_V (s : State) : s.touch.V = s.V := rfl
@[simp] theorem State.touch_I (s : State) : s.touch.I = s.I := rfl
@[simp] theorem State.touch_pc (s : State) : s.touch.pc = s.pc := rfl
@[simp] theorem State.touch_STACK (s : State) : s.touch.STACK = s.STACK := rfl
@[simp] theorem State.touch_SP (s : State) : s.touch.SP = s.SP := rfl
@[simp] theorem State.touch_DT (s : State) : s.touch.DT = s.DT := rfl
@[simp] theorem State.touch_ST (s : State) : s.touch.ST = s.ST := rfl
@[simp] theorem State.touch_FB (s : State) : s.touch.FB = s.FB := rfl
@[simp] theorem State.touch_KEY (s : State) : s.touch.KEY = s.KEY := rfl
@[simp] theorem State.touch_FAULT (s : State) : s.touch.FAULT = s.FAULT := rfl
@[simp] theorem State.touch_bnnnMode (s : State) : s.touch.bnnnMode = s.bnnnMode := rfl
@[simp] theorem State.touch_agenda (s : State) : s.touch.agenda = s.agenda := rfl
@[simp] theorem State.touch_drawQueue (s : State) : s.touch.drawQueue = s.drawQueue := rfl
@[simp] theorem State.touch_drawCount (s : State) : s.touch.drawCount = s.drawCount := rfl
@[simp] theorem State.touch_warnings (s : State) : s.touch.warnings = s.warnings := rfl
@[simp] theorem State.touch_untouched (s : State) : s.touch.untouched = false := rfl

/-! ### resetOp -/

@[simp] theorem State.resetOp_mem (s : State) : s.resetOp.mem = State.reset.mem := rfl
@[simp] theorem State.resetOp_V (s : State) : s.resetOp.V = State.reset.V := rfl
@[simp] theorem State.resetOp_I (s : State) : s.resetOp.I = State.reset.I := rfl
@[simp] theorem State.resetOp_pc (s : State) : s.resetOp.pc = State.reset.pc := rfl
@[simp] theorem State.resetOp_STACK (s : State) : s.resetOp.STACK = State.reset.STACK := rfl
@[simp] theorem State.resetOp_SP (s : State) : s.resetOp.SP = State.reset.SP := rfl
@[simp] theorem State.resetOp_DT (s : State) : s.resetOp.DT = State.reset.DT := rfl
@[simp] theorem State.resetOp_ST (s : State) : s.resetOp.ST = State.reset.ST := rfl
@[simp] theorem State.resetOp_FB (s : State) : s.resetOp.FB = State.reset.FB := rfl
@[simp] theorem State.resetOp_KEY (s : State) : s.resetOp.KEY = State.reset.KEY := rfl
@[simp] theorem State.resetOp_FAULT (s : State) : s.resetOp.FAULT = State.reset.FAULT := rfl
@[simp] theorem State.resetOp_bnnnMode (s : State) : s.resetOp.bnnnMode = s.bnnnMode := rfl
@[simp] theorem State.resetOp_agenda (s : State) : s.resetOp.agenda = s.agenda := rfl
@[simp] theorem State.resetOp_drawQueue (s : State) : s.resetOp.drawQueue = s.drawQueue := rfl
@[simp] theorem State.resetOp_drawCount (s : State) : s.resetOp.drawCount = s.drawCount := rfl
@[simp] theorem State.resetOp_warnings (s : State) : s.resetOp.warnings = s.warnings := rfl
@[simp] theorem State.resetOp_untouched (s : State) : s.resetOp.untouched = true := rfl

/-! ### Reading one register -/

theorem State.reg_writeReg (s : State) (r q : Reg) (v : Byte) :
    (s.writeReg r v).reg q = if q = r then v else s.reg q := by
  by_cases h : q = r
  · subst h; simp [State.reg]
  · have : (r : Nat) ≠ q := fun e => h (Fin.ext e.symm)
    simp [State.reg, h, Vector.getElem_set_ne, this]

@[simp] theorem State.reg_writeReg_same (s : State) (r : Reg) (v : Byte) : (s.writeReg r v).reg r = v := by
  simp [State.reg_writeReg]

theorem State.reg_writeReg_other (s : State) (r q : Reg) (v : Byte) (h : q ≠ r) : (s.writeReg r v).reg q = s.reg q := by
  simp [State.reg_writeReg, h]

@[simp] theorem State.reg_setPc (s : State) (v : Word) (q : Reg) : (s.setPc v).reg q = s.reg q := rfl
@[simp] theorem State.reg_advance (s : State) (q : Reg) : (s.advance).reg q = s.reg q := rfl
@[simp] theorem State.reg_skipIf (s : State) (c : Bool) (q : Reg) : (s.skipIf c).reg q = s.reg q := rfl
@[simp] theorem State.reg_setI (s : State) (v : Word) (q : Reg) : (s.setI v).reg q = s.reg q := rfl
@[simp] theorem State.reg_setDT (s : State) (v : Byte) (q : Reg) : (s.setDT v).reg q = s.reg q := rfl
@[simp] theorem State.reg_setST (s : State) (v : Byte) (q : Reg) : (s.setST v).reg q = s.reg q := rfl
@[simp] theorem State.reg_setFB (s : State) (v : Frame) (q : Reg) : (s.setFB v).reg q = s.reg q := rfl
@[simp] theorem State.reg_setMem (s : State) (m : Memory) (q : Reg) : (s.setMem m).reg q = s.reg q := rfl
@[simp] theorem State.reg_warn (s : State) (op : Word) (q : Reg) : (s.warn op).reg q = s.reg q := rfl
@[simp] theorem State.reg_consumeDraw (s : State) (q : Reg) : (s.consumeDraw).reg q = s.reg q := rfl
@[simp] theorem State.reg_raise (s : State) (k : FaultKind) (a : Nat) (q : Reg) : (s.raise k a).reg q = s.reg q := rfl
@[simp] theorem State.reg_tickTimers (s : State) (q : Reg) : (s.tickTimers).reg q = s.reg q := rfl
@[simp] theorem State.reg_touch (s : State) (q : Reg) : s.touch.reg q = s.reg q := rfl
@[simp] theorem State.reg_setKey (s : State) (k : Fin 16) (b : Bool) (q : Reg) : (s.setKey k b).reg q = s.reg q := rfl

/-! ### Two states are equal when all their fields are -/

theorem State.ext_fields {s t : State} (mem : s.mem = t.mem) (V : ∀ r, s.reg r = t.reg r) (I : s.I = t.I) (pc : s.pc = t.pc)
    (STACK : s.STACK = t.STACK) (SP : s.SP = t.SP) (DT : s.DT = t.DT) (ST : s.ST = t.ST) (FB : s.FB = t.FB)
    (KEY : s.KEY = t.KEY) (FAULT : s.FAULT = t.FAULT) (bnnnMode : s.bnnnMode = t.bnnnMode) (agenda : s.agenda = t.agenda)
    (drawQueue : s.drawQueue = t.drawQueue) (drawCount : s.drawCount = t.drawCount) (warnings : s.warnings = t.warnings)
    (untouched : s.untouched = t.untouched) :
    s = t := by
  have hV : s.V = t.V := Vector.ext fun k hk => V ⟨k, hk⟩
  cases s; cases t
  simp_all

end Sys2Proof.Machine
end

