-- ==== Sys2Proof/Laws/Memory.lean ====
section
/-! SUPPORT. The laws of the memory array: a read after a write, runs of reads and writes, and that every memory operation keeps the
canonical form `Memory.wf`. -/

namespace Sys2Proof.Machine

theorem Memory.read_write (m : Memory) (a v) (ha : m.Pairwise (fun c d => c.1 < d.1)) (k : Nat) :
    (m.write a v).read k = if k = a then v else m.read k := by
  induction m with
  | nil =>
    simp only [Memory.write]
    split <;> by_cases h : k = a <;> simp_all [Memory.read, eq_comm]
  | cons c m ih =>
    obtain ⟨j, b⟩ := c
    rw [List.pairwise_cons] at ha
    have hlow : ∀ q : Nat, q ≤ j → Memory.read m q = resetByte q := by
      have h1 := ha.1
      clear ih
      have h2 := ha.2
      clear ha
      induction m with
      | nil => intro q _; rfl
      | cons d m ihm =>
        intro q hq
        rw [List.pairwise_cons] at h2
        have : d.1 ≠ q := by have := h1 d (by simp); simp only at this; omega
        simp only [Memory.read, this, if_false]
        exact ihm (fun e he => h1 e (by simp [he])) h2.2 q hq
    simp only [Memory.write]
    split
    · rename_i haj
      split
      · rename_i hv
        by_cases h : k = a
        · subst h
          have : j ≠ k := by omega
          simp [Memory.read, this, hv, hlow k (by omega)]
        · simp [h]
      · by_cases h : k = a
        · simp [Memory.read, h]
        · simp [Memory.read, h, Ne.symm h]
    · split
      · rename_i haj
        subst haj
        split
        · rename_i hv
          by_cases h : k = a
          · subst h; simp [hv, hlow k (Nat.le_refl _)]
          · simp [Memory.read, h, Ne.symm h]
        · by_cases h : k = a
          · simp [Memory.read, h]
          · simp [Memory.read, h, Ne.symm h]
      · rename_i h1 h2
        by_cases h : j = k
        · subst h; simp [Memory.read, Ne.symm h2]
        · simp [Memory.read, h, ih ha.2]

theorem Memory.mem_write {m : Memory} {a v} {c : Host.Cell} (h : c ∈ m.write a v) : c ∈ m ∨ (c = (a, v) ∧ v ≠ resetByte a) := by
  induction m with
  | nil => simp only [Memory.write] at h; split at h <;> simp_all
  | cons d m ih =>
    obtain ⟨j, b⟩ := d
    simp only [Memory.write] at h
    split at h
    · split at h <;> (simp_all; try tauto)
    · split at h
      · split at h <;> (simp_all; try tauto)
      · rw [List.mem_cons] at h
        rcases h with h | h
        · simp [h]
        · rcases ih h with h | h <;> simp [h]

theorem Memory.write_wf {m : Memory} {a v} (hm : m.wf) (ha : a < 4096) : (m.write a v).wf := by
  refine ⟨?_, fun c hc => ?_⟩
  · have hp := hm.1
    clear hm
    induction m with
    | nil => simp only [Memory.write]; split <;> simp
    | cons d m ih =>
      obtain ⟨j, b⟩ := d
      rw [List.pairwise_cons] at hp
      simp only [Memory.write]
      split
      · rename_i haj
        split
        · simpa using hp
        · refine List.pairwise_cons.2 ⟨fun c hc => ?_, List.pairwise_cons.2 hp⟩
          rcases List.mem_cons.1 hc with rfl | hc
          · exact haj
          · exact Nat.lt_trans haj (hp.1 c hc)
      · split
        · rename_i haj
          subst haj
          split
          · exact hp.2
          · exact List.pairwise_cons.2 ⟨fun c hc => hp.1 c hc, hp.2⟩
        · refine List.pairwise_cons.2 ⟨fun c hc => ?_, ih hp.2⟩
          rcases Memory.mem_write hc with hc | ⟨rfl, -⟩
          · exact hp.1 c hc
          · simp only; omega
  · rcases Memory.mem_write hc with hc | ⟨rfl, hv⟩
    · exact hm.2 c hc
    · exact ⟨ha, hv⟩

theorem Memory.writeRun_wf {m : Memory} {a : Nat} {bs : List Byte} (hm : m.wf) (ha : a + bs.length ≤ 4096) :
    (m.writeRun a bs).wf := by
  induction bs generalizing m a with
  | nil => exact hm
  | cons b bs ih =>
    simp only [List.length_cons] at ha
    exact ih (Memory.write_wf hm (by omega)) (by omega)

theorem Memory.write_sorted {m : Memory} {a v} (hm : m.Pairwise (fun c d => c.1 < d.1)) :
    (m.write a v).Pairwise (fun c d => c.1 < d.1) := by
  induction m with
  | nil => simp only [Memory.write]; split <;> simp
  | cons d m ih =>
    obtain ⟨j, b⟩ := d
    have hp := List.pairwise_cons.1 hm
    simp only [Memory.write]
    split
    · rename_i haj
      split
      · exact hm
      · refine List.pairwise_cons.2 ⟨fun c hc => ?_, hm⟩
        rcases List.mem_cons.1 hc with rfl | hc
        · exact haj
        · exact Nat.lt_trans haj (hp.1 c hc)
    · split
      · rename_i haj
        subst haj
        split
        · exact hp.2
        · exact List.pairwise_cons.2 ⟨fun c hc => hp.1 c hc, hp.2⟩
      · refine List.pairwise_cons.2 ⟨fun c hc => ?_, ih hp.2⟩
        rcases Memory.mem_write hc with hc | ⟨rfl, -⟩
        · exact hp.1 c hc
        · simp only; omega

/-- What every address reads as after a run of writes. -/
theorem Memory.read_writeRun (m : Memory) (a : Nat) (bs : List Byte) (hm : m.Pairwise (fun c d => c.1 < d.1)) (k : Nat) :
    (m.writeRun a bs).read k = if a ≤ k then bs.getD (k - a) (m.read k) else m.read k := by
  induction bs generalizing m a with
  | nil => simp [Memory.writeRun]
  | cons b bs ih =>
    simp only [Memory.writeRun, ih _ _ (Memory.write_sorted hm), Memory.read_write m a b hm]
    by_cases h : k = a
    · subst h
      simp
    · by_cases h2 : a + 1 ≤ k
      · have : k - a = (k - (a + 1)) + 1 := by omega
        simp [h, h2, this, show a ≤ k by omega]
      · have : ¬ a ≤ k := by omega
        simp [h, h2, this]

@[simp] theorem Memory.length_readRun (m : Memory) (a n : Nat) : (m.readRun a n).length = n := by
  induction n generalizing a with
  | zero => rfl
  | succ n ih => simp [Memory.readRun, ih]

theorem Memory.getElem_readRun (m : Memory) (a n k : Nat) (h : k < (m.readRun a n).length) :
    (m.readRun a n)[k] = m.read (a + k) := by
  induction n generalizing a k with
  | zero => simp at h
  | succ n ih =>
    cases k with
    | zero => rfl
    | succ k =>
      simp only [Memory.readRun, List.getElem_cons_succ]
      rw [ih]
      congr 1
      omega

/-- Memory after reset lists nothing and is in canonical form. -/
theorem Memory.reset_wf : State.reset.mem.wf := by decide

end Sys2Proof.Machine
end

