-- ==== Sys2Proof/Laws/Ops.lean ====
section
/-! SUPPORT. One lemma per shared operation that says everything it can do; provers cite these instead of unfolding. -/

namespace Sys2Proof.Machine

theorem outOfRange_eq_true {a n : Nat} : outOfRange a n = true ↔ 0 < n ∧ 4096 < a + n := by simp [outOfRange]

theorem outOfRange_eq_false {a n : Nat} : outOfRange a n = false ↔ n = 0 ∨ a + n ≤ 4096 := by
  simp [outOfRange]; omega

theorem State.readBytes_eq_some {s : State} {a n : Nat} {bs : List Byte} :
    s.readBytes a n = some bs ↔ (n = 0 ∨ a + n ≤ 4096) ∧ bs = s.mem.readRun a n := by
  unfold State.readBytes
  cases h : outOfRange a n
  · simp [outOfRange_eq_false.1 h, eq_comm]
  · have := outOfRange_eq_true.1 h
    simp; omega

theorem State.readBytes_eq_none {s : State} {a n : Nat} : s.readBytes a n = none ↔ 0 < n ∧ 4096 < a + n := by
  unfold State.readBytes
  cases h : outOfRange a n
  · have := outOfRange_eq_false.1 h
    simp; omega
  · simp [outOfRange_eq_true.1 h]

theorem State.writeBytes_eq_some {s t : State} {a : Nat} {bs : List Byte} :
    s.writeBytes a bs = some t ↔ (bs.length = 0 ∨ a + bs.length ≤ 4096) ∧ t = s.setMem (s.mem.writeRun a bs) := by
  unfold State.writeBytes
  cases h : outOfRange a bs.length
  · have := outOfRange_eq_false.1 h
    simp only [Bool.false_eq_true, if_false, Option.some.injEq, this, true_and]
    exact eq_comm
  · have := outOfRange_eq_true.1 h
    simp only [if_true, reduceCtorEq, false_iff, not_and]
    omega

theorem State.writeBytes_eq_none {s : State} {a : Nat} {bs : List Byte} :
    s.writeBytes a bs = none ↔ 0 < bs.length ∧ 4096 < a + bs.length := by
  unfold State.writeBytes
  cases h : outOfRange a bs.length
  · have := outOfRange_eq_false.1 h
    simp only [Bool.false_eq_true, if_false, reduceCtorEq, false_iff, not_and]
    omega
  · simp only [if_true, true_iff]; exact outOfRange_eq_true.1 h

theorem State.fetch_eq_none {s : State} : s.fetch = none ↔ 0xFFF ≤ s.pc.toNat := by
  simp [State.fetch]

theorem State.fetch_eq_some {s : State} {op : Word} :
    s.fetch = some op ↔
      s.pc.toNat ≤ 0xFFE ∧ op = wordOfBytes (s.mem.read s.pc.toNat) (s.mem.read (s.pc.toNat + 1)) := by
  unfold State.fetch
  split
  · rename_i h
    simp only [Config.memSize] at h
    simp; omega
  · rename_i h
    simp only [Config.memSize] at h
    simp [eq_comm]; omega

theorem State.push_eq_none {s : State} {v : Word} : s.push v = none ↔ s.SP.val = 16 := by
  unfold State.push
  split <;> simp <;> omega

/-- A push that succeeds: one more entry, the new one at the old `SP`; every other cell and every other field as before. -/
theorem State.push_eq_some {s t : State} {v : Word} :
    s.push v = some t ↔ ∃ h : s.SP.val < 16,
      t = { s with STACK := s.STACK.set s.SP.val v h, SP := ⟨s.SP.val + 1, Nat.succ_lt_succ h⟩ } := by
  unfold State.push
  split
  · rename_i h; simp [eq_comm, h]
  · rename_i h; simp [h]

theorem State.pop_eq_none {s : State} : s.pop = none ↔ s.SP.val = 0 := by
  unfold State.pop
  split
  · rename_i h; simp [h]
  · rename_i h; simp [h]

/-- A pop that succeeds: one entry fewer and the entry that was on top; every other field as before. -/
theorem State.pop_eq_some {s t : State} {v : Word} :
    s.pop = some (v, t) ↔ ∃ (k : Nat) (h : k < 16), s.SP.val = k + 1 ∧ v = s.STACK[k] ∧
      t = { s with SP := ⟨k, Nat.lt_succ_of_lt h⟩ } := by
  unfold State.pop
  split
  · rename_i h; simp [h]
  · rename_i k hk h
    simp only [Option.some.injEq, Prod.mk.injEq, h]
    constructor
    · rintro ⟨rfl, rfl⟩
      exact ⟨k, by omega, rfl, rfl, rfl⟩
    · rintro ⟨j, hj, hk', rfl, rfl⟩
      obtain rfl : k = j := Nat.succ.inj hk'
      exact ⟨rfl, rfl⟩

theorem State.nextDraw_cons {s : State} {r : Byte} {q : List Byte} (h : s.drawQueue = r :: q) : s.nextDraw = r := by
  simp [State.nextDraw, h]

theorem State.lowestKey_eq_some {s : State} {k : Nat} :
    s.lowestKey = some k ↔ k < 16 ∧ s.pressed k = true ∧ ∀ j < k, s.pressed j = false := by
  unfold State.lowestKey
  rw [List.find?_range_eq_some]
  simp [and_left_comm]

theorem State.lowestKey_eq_none {s : State} : s.lowestKey = none ↔ ∀ k < 16, s.pressed k = false := by
  simp [State.lowestKey]

theorem State.fresh_eq_true {s : State} : s.fresh = true ↔ s = s.resetOp := by simp [State.fresh]

/-- The mark of a fresh state stays over a tick only where the tick changed nothing. -/
theorem State.tickTimers_untouched_eq_true {s : State} :
    s.tickTimers.untouched = true ↔ s.untouched = true ∧ s.tickTimers = s := by
  refine ⟨fun h => ?_, fun ⟨h, e⟩ => by rw [e]; exact h⟩
  obtain ⟨⟨hu, hd⟩, hs⟩ : (s.untouched = true ∧ s.DT = 0x00#8) ∧ s.ST = 0x00#8 := by simpa using h
  exact ⟨hu, by cases s; simp only at hd hs; subst hd hs; simp [State.tickTimers]⟩

/-- A key write that gives the flag the value it has changes nothing. -/
theorem State.setKey_eq_self {s : State} {k : Fin 16} {b : Bool} (h : s.pressed k = b) : s.setKey k b = s := by
  have hk : (if b then s.KEY ||| BitVec.twoPow 16 k else s.KEY &&& ~~~ BitVec.twoPow 16 k) = s.KEY := by
    refine BitVec.eq_of_getLsbD_eq fun j hj => ?_
    simp only [State.pressed] at h
    cases b
    · simp only [Bool.false_eq_true, if_false, BitVec.getLsbD_and, BitVec.getLsbD_not, BitVec.getLsbD_twoPow]
      by_cases e : (k : Nat) = j <;> simp_all
    · simp only [if_true, BitVec.getLsbD_or, BitVec.getLsbD_twoPow]
      by_cases e : (k : Nat) = j <;> simp_all
  unfold State.setKey
  rw [hk, h]; simp

/-- The mark of a fresh state stays over a key write only where the write changed nothing. -/
theorem State.setKey_untouched_eq_true {s : State} {k : Fin 16} {b : Bool} :
    (s.setKey k b).untouched = true ↔ s.untouched = true ∧ s.setKey k b = s := by
  refine ⟨fun h => ?_, fun ⟨h, e⟩ => by rw [e]; exact h⟩
  obtain ⟨hu, hk⟩ : s.untouched = true ∧ s.pressed k = b := by simpa using h
  exact ⟨hu, State.setKey_eq_self hk⟩

theorem loadOp_eq_next {rom : List Byte} {s t : State} :
    loadOp rom s = .next t ↔ s = s.resetOp ∧
      ((0xE00 < rom.length ∧ t = s.touch.raise .romTooLarge 0) ∨
        (rom.length ≤ 0xE00 ∧ t = s.touch.setMem (s.mem.writeRun 0x200 rom))) := by
  unfold loadOp State.fresh
  by_cases h : s = s.resetOp
  · by_cases h2 : 0xE00 < rom.length
    · simp only [← h, decide_true, if_true, Config.romMax, h2, Host.Outcome.next.injEq]
      constructor
      · rintro rfl; simp
      · rintro ⟨-, ⟨-, rfl⟩ | ⟨h3, -⟩⟩
        · rfl
        · omega
    · simp only [← h, decide_true, if_true, Config.romMax, Config.romBase, h2, if_false, Host.Outcome.next.injEq]
      constructor
      · rintro rfl; simp; omega
      · rintro ⟨-, ⟨h3, -⟩ | ⟨-, rfl⟩⟩
        · exact h3.elim
        · rfl
  · simp [h]

/-- Everything `step()` can do: nothing while the latch is set; a fetch fault; or the decoded instruction, from a
state marked as no longer fresh. -/
theorem coreStep_cases (s : State) :
    (s.FAULT.kind ≠ .none ∧ coreStep s = .next s) ∨
    (s.FAULT.kind = .none ∧ 0xFFF ≤ s.pc.toNat ∧ coreStep s = .next (s.touch.raise .addressOutOfBounds s.pc.toNat)) ∨
    (s.FAULT.kind = .none ∧ s.pc.toNat ≤ 0xFFE ∧
      coreStep s = exec (decodeWord (wordOfBytes (s.mem.read s.pc.toNat) (s.mem.read (s.pc.toNat + 1)))) s.touch) := by
  unfold coreStep State.faulted
  by_cases h : s.FAULT.kind = .none
  · cases hf : s.fetch with
    | none => simp [h, State.fetch_eq_none.1 hf]
    | some op =>
      obtain ⟨h1, rfl⟩ := State.fetch_eq_some.1 hf
      simp [h, h1]
  · simp [h]

/-- Everything the machine's step can do: an empty agenda runs `step()`, else the oldest operation is taken off and applied. -/
theorem step_cases (s : State) :
    (s.agenda = [] ∧ step s = coreStep s) ∨
    (∃ op rest, s.agenda = op :: rest ∧ step s = applyOp op { s with agenda := rest }) := by
  unfold step scheduledStep
  cases h : s.agenda with
  | nil => simp
  | cons op rest => exact Or.inr ⟨op, rest, rfl, rfl⟩

/-- Everything an operation of the interface can do, once per operation. -/
theorem applyOp_cases (op : Op) (s : State) :
    (op = .reset ∧ applyOp op s = .next s.resetOp) ∨
    (∃ rom, op = .load rom ∧ applyOp op s = loadOp rom s) ∨
    (op = .step ∧ applyOp op s = coreStep s) ∨
    (op = .tickTimers ∧ applyOp op s = .next s.tickTimers) ∨
    (∃ k b, op = .setKey k b ∧ applyOp op s = .next (s.setKey k b)) := by
  cases op with
  | setKey k b => exact .inr (.inr (.inr (.inr ⟨k, b, rfl, rfl⟩)))
  | _ => simp [applyOp]

end Sys2Proof.Machine
end

