-- ==== Sys2Proof/Laws/Exec.lean ====
section
/-! SUPPORT. What each meaning that has several cases answers in each of them; the others answer their one state by unfolding. -/

namespace Sys2Proof.Machine

theorem execRet_empty {s : State} (h : s.SP.val = 0) : execRet s = .next (s.raise .stackUnderflow 0) := by
  simp [execRet, State.pop_eq_none.2 h]

theorem execRet_pop {s : State} {k : Nat} (hk : k < 16) (h : s.SP.val = k + 1) :
    execRet s = .next (({ s with SP := ⟨k, Nat.lt_succ_of_lt hk⟩ } : State).setPc (s.STACK[k] + 2#16)) := by
  simp [execRet, State.pop_eq_some.2 ⟨k, hk, h, rfl, rfl⟩]

theorem execCall_full {s : State} (nnn : BitVec 12) (h : s.SP.val = 16) :
    execCall nnn s = .next (s.raise .stackOverflow 0) := by
  simp [execCall, State.push_eq_none.2 h]

theorem execCall_push {s : State} (nnn : BitVec 12) (h : s.SP.val < 16) :
    execCall nnn s = .next (({ s with
      STACK := s.STACK.set s.SP.val s.pc h, SP := ⟨s.SP.val + 1, Nat.succ_lt_succ h⟩ } : State).setPc (address12 nnn)) := by
  simp [execCall, State.push_eq_some.2 ⟨h, rfl⟩]

theorem execJpV0_unrecognized {s : State} (nnn : BitVec 12) (h : s.bnnnMode = .unrecognized) :
    execJpV0 nnn s = .next (s.warn (encode (.jpV0 nnn))).advance := by simp [execJpV0, h]

theorem execJpV0_jump {s : State} (nnn : BitVec 12) (h : s.bnnnMode = .jumpV0) :
    execJpV0 nnn s = .next (s.setPc (address12 nnn + s.regWord 0)) := by simp [execJpV0, h]

theorem execDrw_fault {s : State} (x y : Reg) (n : BitVec 4) (h0 : 0 < n.toNat) (h : 4096 < s.I.toNat + n.toNat) :
    execDrw x y n s = .next (s.raise .addressOutOfBounds (max s.I.toNat 4096)) := by
  simp [execDrw, State.readBytes_eq_none.2 ⟨h0, h⟩, offendingAddress]

theorem execDrw_draw {s : State} (x y : Reg) (n : BitVec 4) (h : n.toNat = 0 ∨ s.I.toNat + n.toNat ≤ 4096) :
    execDrw x y n s = .next
      (((s.setFB (drawSprite s.FB (s.reg x).toNat (s.reg y).toNat (s.mem.readRun s.I.toNat n.toNat)).1).writeReg VF
        (flagByte (drawSprite s.FB (s.reg x).toNat (s.reg y).toNat (s.mem.readRun s.I.toNat n.toNat)).2)).advance) := by
  simp [execDrw, State.readBytes_eq_some.2 ⟨h, rfl⟩]

theorem execLdVxK_blocked {s : State} (x : Reg) (h : ∀ k < 16, s.pressed k = false) : execLdVxK x s = .next s := by
  simp [execLdVxK, State.lowestKey_eq_none.2 h]

theorem execLdVxK_key {s : State} (x : Reg) {k : Nat} (hk : k < 16) (h : s.pressed k = true)
    (hl : ∀ j < k, s.pressed j = false) : execLdVxK x s = .next (s.writeReg x (BitVec.ofNat 8 k)).advance := by
  simp [execLdVxK, State.lowestKey_eq_some.2 ⟨hk, h, hl⟩]

/-- A key wait either leaves the state alone, with no key down, or writes the lowest pressed key. -/
theorem execLdVxK_cases (x : Reg) (s : State) :
    ((∀ k < 16, s.pressed k = false) ∧ execLdVxK x s = .next s) ∨
    (∃ k < 16, s.pressed k = true ∧ (∀ j < k, s.pressed j = false) ∧
      execLdVxK x s = .next (s.writeReg x (BitVec.ofNat 8 k)).advance) := by
  cases h : s.lowestKey with
  | none => exact .inl ⟨State.lowestKey_eq_none.1 h, execLdVxK_blocked x (State.lowestKey_eq_none.1 h)⟩
  | some k =>
    obtain ⟨hk, hp, hl⟩ := State.lowestKey_eq_some.1 h
    exact .inr ⟨k, hk, hp, hl, execLdVxK_key x hk hp hl⟩

theorem execLdB_fault {s : State} (x : Reg) (h : 4095 < s.I.toNat + 2) :
    execLdB x s = .next (s.raise .addressOutOfBounds (max s.I.toNat 4096)) := by
  have : s.writeBytes s.I.toNat (bcdDigits (s.reg x)) = none := State.writeBytes_eq_none.2 (by simp [bcdDigits]; omega)
  simp [execLdB, this, offendingAddress]

theorem execLdB_store {s : State} (x : Reg) (h : s.I.toNat + 2 ≤ 4095) :
    execLdB x s = .next (s.setMem (s.mem.writeRun s.I.toNat (bcdDigits (s.reg x)))).advance := by
  have : s.writeBytes s.I.toNat (bcdDigits (s.reg x)) = some (s.setMem (s.mem.writeRun s.I.toNat (bcdDigits (s.reg x)))) :=
    State.writeBytes_eq_some.2 ⟨by simp [bcdDigits]; omega, rfl⟩
  simp [execLdB, this]

@[simp] theorem State.length_regBlock (s : State) (x : Reg) : (s.regBlock x).length = x.val + 1 := by
  simp [State.regBlock]

theorem State.getD_regBlock (s : State) (x r : Reg) (d : Byte) (h : r.val ≤ x.val) :
    (s.regBlock x).getD r.val d = s.reg r := by
  simp [State.regBlock, State.reg, List.getD, Nat.lt_succ_of_le h]

theorem execStoreRegs_fault {s : State} (x : Reg) (h : 4095 < s.I.toNat + x.val) :
    execStoreRegs x s = .next (s.raise .addressOutOfBounds (max s.I.toNat 4096)) := by
  have : s.writeBytes s.I.toNat (s.regBlock x) = none := State.writeBytes_eq_none.2 (by simp; omega)
  simp [execStoreRegs, this, offendingAddress]

theorem execStoreRegs_store {s : State} (x : Reg) (h : s.I.toNat + x.val ≤ 4095) :
    execStoreRegs x s = .next (s.setMem (s.mem.writeRun s.I.toNat (s.regBlock x))).advance := by
  have : s.writeBytes s.I.toNat (s.regBlock x) = some (s.setMem (s.mem.writeRun s.I.toNat (s.regBlock x))) :=
    State.writeBytes_eq_some.2 ⟨by simp; omega, rfl⟩
  simp [execStoreRegs, this]

theorem execLoadRegs_fault {s : State} (x : Reg) (h : 4095 < s.I.toNat + x.val) :
    execLoadRegs x s = .next (s.raise .addressOutOfBounds (max s.I.toNat 4096)) := by
  have : s.readBytes s.I.toNat (x.val + 1) = none := State.readBytes_eq_none.2 ⟨by omega, by omega⟩
  simp [execLoadRegs, this, offendingAddress]

theorem execLoadRegs_load {s : State} (x : Reg) (h : s.I.toNat + x.val ≤ 4095) :
    execLoadRegs x s = .next (s.writeRegBlock (s.mem.readRun s.I.toNat (x.val + 1))).advance := by
  have : s.readBytes s.I.toNat (x.val + 1) = some (s.mem.readRun s.I.toNat (x.val + 1)) :=
    State.readBytes_eq_some.2 ⟨by omega, rfl⟩
  simp [execLoadRegs, this]

/-- What a register holds after a block is written from register `k` up. -/
theorem getElem_writeBlock (V : Vector Byte 16) (k : Nat) (bs : List Byte) (r : Nat) (hr : r < 16) :
    (writeBlock V k bs)[r] = if k ≤ r then bs.getD (r - k) V[r] else V[r] := by
  induction bs generalizing V k with
  | nil => simp [writeBlock]
  | cons b bs ih =>
    rw [writeBlock, ih]
    by_cases h : k = r
    · subst h; simp
    · by_cases h2 : k + 1 ≤ r
      · have : r - k = (r - (k + 1)) + 1 := by omega
        simp [h, h2, this, show k ≤ r by omega]
      · simp [h2, h, show ¬ k ≤ r by omega]

/-- What a register holds after V0, V1, ... take the bytes of a list. -/
theorem State.reg_writeRegBlock (s : State) (bs : List Byte) (r : Reg) :
    (s.writeRegBlock bs).reg r = bs.getD r.val (s.reg r) := by
  simp [State.reg, getElem_writeBlock]

/-! ### The cases of each meaning that has several, together -/

theorem execRet_cases (s : State) :
    (s.SP.val = 0 ∧ execRet s = .next (s.raise .stackUnderflow 0)) ∨
    (∃ (k : Nat) (hk : k < 16), s.SP.val = k + 1 ∧
      execRet s = .next (({ s with SP := ⟨k, Nat.lt_succ_of_lt hk⟩ } : State).setPc (s.STACK[k] + 2#16))) := by
  rcases Nat.eq_zero_or_pos s.SP.val with h | h
  · exact .inl ⟨h, execRet_empty h⟩
  · have := s.SP.isLt
    exact .inr ⟨s.SP.val - 1, by omega, by omega, execRet_pop (by omega) (by omega)⟩

theorem execCall_cases (nnn : BitVec 12) (s : State) :
    (s.SP.val = 16 ∧ execCall nnn s = .next (s.raise .stackOverflow 0)) ∨
    (∃ h : s.SP.val < 16, execCall nnn s = .next (({ s with
      STACK := s.STACK.set s.SP.val s.pc h, SP := ⟨s.SP.val + 1, Nat.succ_lt_succ h⟩ } : State).setPc (address12 nnn))) := by
  have := s.SP.isLt
  by_cases h : s.SP.val < 16
  · exact .inr ⟨h, execCall_push nnn h⟩
  · exact .inl ⟨by omega, execCall_full nnn (by omega)⟩

theorem execJpV0_cases (nnn : BitVec 12) (s : State) :
    (s.bnnnMode = .unrecognized ∧ execJpV0 nnn s = .next (s.warn (encode (.jpV0 nnn))).advance) ∨
    (s.bnnnMode = .jumpV0 ∧ execJpV0 nnn s = .next (s.setPc (address12 nnn + s.regWord 0))) := by
  cases h : s.bnnnMode
  · exact .inl ⟨rfl, execJpV0_unrecognized nnn h⟩
  · exact .inr ⟨rfl, execJpV0_jump nnn h⟩

theorem execDrw_cases (x y : Reg) (n : BitVec 4) (s : State) :
    (0 < n.toNat ∧ 4096 < s.I.toNat + n.toNat ∧
      execDrw x y n s = .next (s.raise .addressOutOfBounds (max s.I.toNat 4096))) ∨
    ((n.toNat = 0 ∨ s.I.toNat + n.toNat ≤ 4096) ∧ execDrw x y n s = .next
      (((s.setFB (drawSprite s.FB (s.reg x).toNat (s.reg y).toNat (s.mem.readRun s.I.toNat n.toNat)).1).writeReg VF
        (flagByte (drawSprite s.FB (s.reg x).toNat (s.reg y).toNat (s.mem.readRun s.I.toNat n.toNat)).2)).advance)) := by
  by_cases h : n.toNat = 0 ∨ s.I.toNat + n.toNat ≤ 4096
  · exact .inr ⟨h, execDrw_draw x y n h⟩
  · exact .inl ⟨by omega, by omega, execDrw_fault x y n (by omega) (by omega)⟩

theorem execLdB_cases (x : Reg) (s : State) :
    (4095 < s.I.toNat + 2 ∧ execLdB x s = .next (s.raise .addressOutOfBounds (max s.I.toNat 4096))) ∨
    (s.I.toNat + 2 ≤ 4095 ∧
      execLdB x s = .next (s.setMem (s.mem.writeRun s.I.toNat (bcdDigits (s.reg x)))).advance) := by
  by_cases h : s.I.toNat + 2 ≤ 4095
  · exact .inr ⟨h, execLdB_store x h⟩
  · exact .inl ⟨by omega, execLdB_fault x (by omega)⟩

theorem execStoreRegs_cases (x : Reg) (s : State) :
    (4095 < s.I.toNat + x.val ∧ execStoreRegs x s = .next (s.raise .addressOutOfBounds (max s.I.toNat 4096))) ∨
    (s.I.toNat + x.val ≤ 4095 ∧
      execStoreRegs x s = .next (s.setMem (s.mem.writeRun s.I.toNat (s.regBlock x))).advance) := by
  by_cases h : s.I.toNat + x.val ≤ 4095
  · exact .inr ⟨h, execStoreRegs_store x h⟩
  · exact .inl ⟨by omega, execStoreRegs_fault x (by omega)⟩

theorem execLoadRegs_cases (x : Reg) (s : State) :
    (4095 < s.I.toNat + x.val ∧ execLoadRegs x s = .next (s.raise .addressOutOfBounds (max s.I.toNat 4096))) ∨
    (s.I.toNat + x.val ≤ 4095 ∧
      execLoadRegs x s = .next (s.writeRegBlock (s.mem.readRun s.I.toNat (x.val + 1))).advance) := by
  by_cases h : s.I.toNat + x.val ≤ 4095
  · exact .inr ⟨h, execLoadRegs_load x h⟩
  · exact .inl ⟨by omega, execLoadRegs_fault x (by omega)⟩

end Sys2Proof.Machine
end

