-- ==== Sys2Proof/Tests/Slice0.lean ====
section
/-! SUPPORT. The model's own tests: the smoke test of WellFormed, words written out from the spec decoded, single steps whose results
come from spec 95_test_vectors.md (the vector's number is named), and for every obligation with hypotheses a witness that meets
them. -/

namespace Sys2Proof.Tests

open Sys2Proof.Machine Sys2Proof.Claims

/-- The outcome is a next state that passes the check. -/
def after (r : Result) (check : State → Bool) : Bool :=
  match r with
  | .next t => check t
  | _ => false

/-- The fresh state with the given registers. -/
def withRegs (regs : List (Reg × Byte)) : State := regs.foldl (fun s p => s.writeReg p.1 p.2) State.reset

/-- The state with the given bytes from an address up. -/
def withBytes (s : State) (a : Nat) (bs : List Byte) : State := { s with mem := s.mem.writeRun a bs }

/-- The step of the state with the word placed at its `pc` passes the check. -/
def ran (s : State) (w : Nat) (check : State → Bool) : Bool := after (step (s.withFetchWord 16 w)) check

/-- The outcome is a next state whose step is refused as a `load()` off a fresh state. -/
def refusedLoad (r : Result) : Bool :=
  match r with
  | .next t =>
    match step t with
    | .refused .loadOnUsedState => true
    | _ => false
  | _ => false

/-- The cells of the framebuffer that hold 1, lowest first, of the first `n`. -/
def lit (s : State) (n : Nat) : List Nat := (List.range n).filter (fun k => s.pixel k)

/-! ### WellFormed -/

theorem test_wf_refuses_sys_as_cls : (Instr.sys 0x0E0#12).wf = false := by decide
theorem test_wf_refuses_sys_as_ret : (Instr.sys 0x0EE#12).wf = false := by decide
theorem test_wf_refuses_assigned_word_family8 : (Instr.unrecognized 0x8AB0#16).wf = false := by decide
theorem test_wf_refuses_assigned_word_familyE : (Instr.unrecognized 0xE09E#16).wf = false := by decide
theorem test_wf_refuses_assigned_word_familyF : (Instr.unrecognized 0xF007#16).wf = false := by decide
theorem test_wf_refuses_word_of_other_family : (Instr.unrecognized 0x1234#16).wf = false := by decide
theorem test_wf_accepts : (Instr.sys 0x0E1#12).wf = true ∧ (Instr.unrecognized 0x8AB8#16).wf = true ∧
    (Instr.unrecognized 0xFFFF#16).wf = true := by decide

/-! ### Decoding: the words of 95_test_vectors.md section 2.1, every constructor -/

theorem test_decode_family0 : decodeWord 0x00E0#16 = .cls ∧ decodeWord 0x00EE#16 = .ret ∧ decodeWord 0x0000#16 = .sys 0x000#12 ∧
    decodeWord 0x00E1#16 = .sys 0x0E1#12 ∧ decodeWord 0x0FEE#16 = .sys 0xFEE#12 := by decide
theorem test_decode_flow : decodeWord 0x10E0#16 = .jp 0x0E0#12 ∧ decodeWord 0x2ABC#16 = .call 0xABC#12 ∧
    decodeWord 0xB300#16 = .jpV0 0x300#12 := by decide
theorem test_decode_skips : decodeWord 0x3A42#16 = .seImm 0xA 0x42#8 ∧ decodeWord 0x4F00#16 = .sneImm 0xF 0x00#8 ∧
    decodeWord 0x5AB0#16 = .seReg 0xA 0xB ∧ decodeWord 0x5AB7#16 = .seReg 0xA 0xB ∧ decodeWord 0x9AB0#16 = .sneReg 0xA 0xB ∧
    decodeWord 0x9ABF#16 = .sneReg 0xA 0xB ∧ decodeWord 0xE09E#16 = .skp 0x0 ∧ decodeWord 0xEFA1#16 = .sknp 0xF := by decide
theorem test_decode_immediate : decodeWord 0x6C99#16 = .ldImm 0xC 0x99#8 ∧ decodeWord 0x7001#16 = .addImm 0x0 0x01#8 ∧
    decodeWord 0xC10F#16 = .rnd 0x1 0x0F#8 := by decide
theorem test_decode_alu : decodeWord 0x8AB0#16 = .ldReg 0xA 0xB ∧ decodeWord 0x8AB1#16 = .orReg 0xA 0xB ∧
    decodeWord 0x8AB2#16 = .andReg 0xA 0xB ∧ decodeWord 0x8AB3#16 = .xorReg 0xA 0xB ∧ decodeWord 0x8AB4#16 = .addReg 0xA 0xB ∧
    decodeWord 0x8AB5#16 = .subReg 0xA 0xB ∧ decodeWord 0x8AB6#16 = .shr 0xA ∧ decodeWord 0x8AB7#16 = .subnReg 0xA 0xB ∧
    decodeWord 0x8ABE#16 = .shl 0xA := by decide
theorem test_decode_display : decodeWord 0xD125#16 = .drw 0x1 0x2 0x5#4 := by decide
theorem test_decode_timer_key : decodeWord 0xF007#16 = .ldVxDt 0x0 ∧ decodeWord 0xF30A#16 = .ldVxK 0x3 ∧
    decodeWord 0xF015#16 = .ldDtVx 0x0 ∧ decodeWord 0xF018#16 = .ldStVx 0x0 := by decide
theorem test_decode_index_memory : decodeWord 0xA2F0#16 = .ldI 0x2F0#12 ∧ decodeWord 0xF01E#16 = .addI 0x0 ∧
    decodeWord 0xF029#16 = .ldF 0x0 ∧ decodeWord 0xF033#16 = .ldB 0x0 ∧ decodeWord 0xF255#16 = .storeRegs 0x2 ∧
    decodeWord 0xF265#16 = .loadRegs 0x2 := by decide
theorem test_decode_unrecognized8 : ([0x8AB8#16, 0x8AB9#16, 0x8ABA#16, 0x8ABB#16, 0x8ABC#16, 0x8ABD#16, 0x8ABF#16].all
    fun op => decodeWord op == .unrecognized op) = true := by decide
theorem test_decode_unrecognizedEF : ([0xE19F#16, 0xE000#16, 0xE1A0#16, 0xF000#16, 0xF066#16, 0xF075#16, 0xF085#16, 0xFFFF#16].all
    fun op => decodeWord op == .unrecognized op) = true := by decide
theorem test_decode_refuses_short_strings : decode [] = .error (.truncated 0) ∧ decode [0x12#8] = .error (.truncated 1) := ⟨rfl, rfl⟩
theorem test_decode_high_byte_first : decode [0x60#8, 0x7B#8, 0xA3#8] = .ok (.ldImm 0x0 0x7B#8, [0xA3#8]) := by decide
theorem test_decode_table_word : decodeTableWord 16 0xD125 = some (.drw 0x1 0x2 0x5#4) ∧ decodeTableWord 16 0 = some (.sys 0#12) := by
  decide

/-! ### Flow control (section 2.2) -/

/-- Vector 2.2/1. -/
theorem test_jp : ran State.reset 0x1234 (fun t => t.pc == 0x0234) = true := by decide
/-- Vector 2.2/5. -/
theorem test_call : ran State.reset 0x2300 (fun t => t.STACK[0] == 0x0200 && t.SP == 1 && t.pc == 0x0300) = true := by decide
/-- Vector 2.2/8. -/
theorem test_call_overflow : ran { State.reset with SP := 16 } 0x2300
    (fun t => t.FAULT.kind == .stackOverflow && t.FAULT.addr == 0 && t.pc == 0x0200 && t.SP == 16) = true := by decide
/-- Vector 2.2/6. -/
theorem test_ret : ran { State.reset with pc := 0x0300, SP := 1, STACK := State.reset.STACK.set 0 0x0200 } 0x00EE
    (fun t => t.SP == 0 && t.pc == 0x0202) = true := by decide
/-- Vector 2.2/7. -/
theorem test_ret_underflow : ran State.reset 0x00EE
    (fun t => t.FAULT.kind == .stackUnderflow && t.FAULT.addr == 0 && t.pc == 0x0200 && t.SP == 0) = true := by decide
/-- Vectors 2.2/10 and 2.2/12. -/
theorem test_sys : ran State.reset 0x0123 (fun t => t.warnings == [0x0123] && t.pc == 0x0202) = true ∧
    ran { State.reset with FB := Frame.flip State.reset.FB 0 } 0x01E0 (fun t => t.warnings == [0x01E0] && t.pixel 0) = true := by decide
/-- Vector 2.2/13. -/
theorem test_jpV0 : ran (withRegs [(0, 0x04)]) 0xB300 (fun t => t.warnings == [0xB300] && t.pc == 0x0202) = true ∧
    ran { withRegs [(0, 0x04)] with bnnnMode := .jumpV0 } 0xB300 (fun t => t.warnings == [] && t.pc == 0x0304) = true := by decide
/-- Vector 2.2/15. -/
theorem test_unrecognized : ran State.reset 0x8AB9 (fun t => t.warnings == [0x8AB9] && t.pc == 0x0202 && t.V == State.reset.V) = true := by
  decide
/-- Vectors 2.2/18 and 2.2/19. -/
theorem test_end_of_memory : ran { State.reset with pc := 0x0FFE } 0x3000 (fun t => t.pc == 0x1002 &&
      after (step t) (fun u => u.FAULT.kind == .addressOutOfBounds && u.FAULT.addr == 0x1002)) = true ∧
    after (step { State.reset with pc := 0x0FFF }) (fun t => t.FAULT.kind == .addressOutOfBounds && t.FAULT.addr == 0x0FFF) = true := by
  decide

/-! ### Skips (section 2.3) -/

/-- Vectors 2.3/1 and 2.3/2. -/
theorem test_seImm : ran (withRegs [(3, 0x2A)]) 0x332A (fun t => t.pc == 0x0204) = true ∧
    ran (withRegs [(3, 0x2A)]) 0x332B (fun t => t.pc == 0x0202) = true := by decide
/-- Vectors 2.3/3 and 2.3/4. -/
theorem test_sneImm : ran (withRegs [(3, 0x2A)]) 0x432A (fun t => t.pc == 0x0202) = true ∧
    ran (withRegs [(3, 0x2A)]) 0x432B (fun t => t.pc == 0x0204) = true := by decide
/-- Vectors 2.3/7 and 2.3/8. -/
theorem test_seReg : ran (withRegs [(1, 0x07), (2, 0x08)]) 0x5120 (fun t => t.pc == 0x0202) = true ∧
    ran (withRegs [(1, 0x07), (2, 0x07)]) 0x5127 (fun t => t.pc == 0x0204) = true := by decide
/-- Vectors 2.3/10 and 2.3/11. -/
theorem test_sneReg : ran (withRegs [(1, 0x07), (2, 0x07)]) 0x9120 (fun t => t.pc == 0x0202) = true ∧
    ran (withRegs [(1, 0x07), (2, 0x08)]) 0x9120 (fun t => t.pc == 0x0204) = true := by decide
/-- R124: key 5 down, then an index above 15. -/
theorem test_skp : ran { withRegs [(1, 0x05)] with KEY := 0x0020#16 } 0xE19E (fun t => t.pc == 0x0204) = true ∧
    ran { withRegs [(1, 0x15)] with KEY := 0xFFFF#16 } 0xE19E (fun t => t.pc == 0x0202) = true := by decide
/-- R125: key 5 down, then an index above 15. -/
theorem test_sknp : ran { withRegs [(1, 0x05)] with KEY := 0x0020#16 } 0xE1A1 (fun t => t.pc == 0x0202) = true ∧
    ran { withRegs [(1, 0x15)] with KEY := 0xFFFF#16 } 0xE1A1 (fun t => t.pc == 0x0204) = true := by decide

/-! ### Immediate and random (section 2.4) -/

/-- R130's example. -/
theorem test_ldImm : ran State.reset 0x6A7B (fun t => t.reg 0xA == 0x7B && t.pc == 0x0202) = true := by decide
/-- R131's examples. -/
theorem test_addImm : ran (withRegs [(2, 0xFE)]) 0x7205 (fun t => t.reg 2 == 0x03 && t.reg VF == 0x00) = true := by decide
/-- R133's examples. -/
theorem test_rnd : ran { State.reset with drawQueue := [0xA7#8] } 0xC30F (fun t => t.reg 3 == 0x07 && t.drawQueue == []) = true ∧
    ran { State.reset with drawQueue := [0xA7#8, 0x11#8] } 0xC3F0 (fun t => t.reg 3 == 0xA0 && t.drawQueue == [0x11#8]) = true := by
  decide
/-- R133, `nn = 0`: whatever the draw. -/
theorem test_rnd_free_draw_masked : ran (withRegs [(3, 0x55)]) 0xC300 (fun t => t.pc == 0x0202 && t.drawCount == 1) = true := by decide

/-! ### ALU (section 2.5) -/

/-- Vectors 2.5/40. -/
theorem test_ldReg : ran (withRegs [(0xF, 0x9C), (1, 0x33)]) 0x8F10 (fun t => t.reg VF == 0x33) = true := by decide
/-- Vector 2.5/41. -/
theorem test_orReg : ran (withRegs [(0xF, 0x0F), (1, 0xF0)]) 0x8F11 (fun t => t.reg VF == 0xFF) = true := by decide
/-- R142, by hand: 0x3C AND 0x0F. -/
theorem test_andReg : ran (withRegs [(1, 0x3C), (2, 0x0F), (0xF, 0x77)]) 0x8122 (fun t => t.reg 1 == 0x0C && t.reg VF == 0x77) = true := by
  decide
/-- R143, by hand: 0x3C XOR 0x0F. -/
theorem test_xorReg : ran (withRegs [(1, 0x3C), (2, 0x0F), (0xF, 0x77)]) 0x8123 (fun t => t.reg 1 == 0x33 && t.reg VF == 0x77) = true := by
  decide
/-- Vectors E4 and 2.5/38. -/
theorem test_addReg : ran (withRegs [(1, 0xFF), (2, 0x01)]) 0x8124 (fun t => t.reg 1 == 0x00 && t.reg 2 == 0x01 && t.reg VF == 0x01) = true ∧
    ran (withRegs [(1, 0x05), (0xF, 0x01)]) 0x81F4 (fun t => t.reg 1 == 0x06 && t.reg VF == 0x00) = true := by decide
/-- Vectors 2.5/31 and 2.5/32. -/
theorem test_addReg_flag_wins : ran (withRegs [(0xF, 0xFF), (1, 0x01)]) 0x8F14 (fun t => t.reg VF == 0x01 && t.reg 1 == 0x01) = true ∧
    ran (withRegs [(0xF, 0x01), (1, 0x01)]) 0x8F14 (fun t => t.reg VF == 0x00) = true := by decide
/-- Vectors E5 and 2.5/17. -/
theorem test_subReg : ran (withRegs [(1, 0x01), (2, 0x02), (0xF, 0x01)]) 0x8125 (fun t => t.reg 1 == 0xFF && t.reg VF == 0x00) = true ∧
    ran (withRegs [(1, 0x6E)]) 0x8115 (fun t => t.reg 1 == 0x00 && t.reg VF == 0x01) = true := by decide
/-- Vectors 2.5/18 and 2.5/34. -/
theorem test_shr : ran (withRegs [(1, 0x03), (2, 0xAA)]) 0x8126 (fun t => t.reg 1 == 0x01 && t.reg 2 == 0xAA && t.reg VF == 0x01) = true ∧
    ran (withRegs [(0xF, 0x03)]) 0x8F06 (fun t => t.reg VF == 0x01) = true := by decide
/-- Vectors 2.5/23 and 2.5/24. -/
theorem test_subnReg : ran (withRegs [(1, 0x02), (2, 0x01)]) 0x8127 (fun t => t.reg 1 == 0xFF && t.reg VF == 0x00) = true ∧
    ran (withRegs [(1, 0x01), (2, 0x02)]) 0x8127 (fun t => t.reg 1 == 0x01 && t.reg VF == 0x01) = true := by decide
/-- Vectors 2.5/26 and 2.5/37. -/
theorem test_shl : ran (withRegs [(1, 0x81), (2, 0xAA)]) 0x812E (fun t => t.reg 1 == 0x02 && t.reg 2 == 0xAA && t.reg VF == 0x01) = true ∧
    ran (withRegs [(0xF, 0x40)]) 0x8F0E (fun t => t.reg VF == 0x00) = true := by decide

/-! ### Display (section 2.6) -/

/-- Vector 2.6/1. -/
theorem test_cls : ran { withRegs [(0xF, 0x01)] with FB := ((State.reset.FB.flip 0).flip 63).flip 2047 } 0x00E0
    (fun t => t.FB == State.reset.FB && t.reg VF == 0x01 && t.pc == 0x0202) = true := by decide
/-- Vectors 2.6/6 and 2.6/9. -/
theorem test_drw : ran (withBytes { withRegs [(0, 0x3C)] with I := 0x0300 } 0x300 [0xFF])
      0xD011 (fun t => lit t 70 == [0, 1, 2, 3, 60, 61, 62, 63] && t.reg VF == 0x00) = true ∧
    ran (withBytes { State.reset with I := 0x0300, FB := (((State.reset.FB.flip 0).flip 1).flip 2).flip 3 } 0x300 [0x60])
      0xD011 (fun t => lit t 70 == [0, 3] && t.reg VF == 0x01) = true := by decide
/-- Vectors 2.6/13 and 2.6/15. -/
theorem test_drw_range : ran { withRegs [(0xF, 0x01)] with I := 0x10FE } 0xD010 (fun t => t.reg VF == 0x00 && t.pc == 0x0202) = true ∧
    ran { State.reset with I := 0x0FFF } 0xD012
      (fun t => t.FAULT.kind == .addressOutOfBounds && t.FAULT.addr == 0x1000 && t.pc == 0x0200) = true := by decide

/-! ### Timers and keys (section 2.7) -/

/-- Vector 2.7/3. -/
theorem test_ldVxDt : ran { State.reset with DT := 0x2C } 0xF207 (fun t => t.reg 2 == 0x2C && t.DT == 0x2C) = true := by decide
/-- Vector 2.7/1. -/
theorem test_ldDtVx : ran (withRegs [(0, 0x03)]) 0xF015 (fun t => t.DT == 0x03 && t.ST == 0x00) = true := by decide
/-- Vector 2.7/2. -/
theorem test_ldStVx : ran (withRegs [(0, 0x03)]) 0xF018 (fun t => t.ST == 0x03 && t.DT == 0x00) = true := by decide
/-- Vectors 2.7/8 and 2.7/9. -/
theorem test_ldVxK : ran (withRegs [(1, 0x55)]) 0xF10A (fun t => t.reg 1 == 0x55 && t.pc == 0x0200) = true ∧
    ran { State.reset with KEY := 0x0480#16 } 0xF10A (fun t => t.reg 1 == 0x07 && t.pc == 0x0202) = true := by decide
/-- Vectors 2.7/5 and 2.7/6. -/
theorem test_tick : after (step { State.reset with DT := 0x03, ST := 0x01, agenda := [.tickTimers] })
      (fun t => t.DT == 0x02 && t.ST == 0x00 && t.pc == 0x0200) = true ∧
    after (step { State.reset with agenda := [.tickTimers] }) (fun t => t.DT == 0x00 && t.ST == 0x00) = true := by decide
/-- Vector 2.7/15. -/
theorem test_setKey : after (step { State.reset with agenda := [.setKey 5 true] }) (fun t => t.KEY == 0x0020#16) = true ∧
    after (step { State.reset with KEY := 0x0021#16, agenda := [.setKey 5 false] }) (fun t => t.KEY == 0x0001#16) = true := by decide

/-! ### Index register and memory (section 2.8) -/

/-- Vector 2.8/2. -/
theorem test_ldI : ran State.reset 0xAFFF (fun t => t.I == 0x0FFF) = true := by decide
/-- Vectors 2.8/4 and 2.8/5. -/
theorem test_addI : ran { withRegs [(0, 0xFF)] with I := 0x0FFF } 0xF01E (fun t => t.I == 0x10FE && t.reg VF == 0x00) = true ∧
    ran { withRegs [(0, 0x02)] with I := 0xFFFF } 0xF01E (fun t => t.I == 0x0001) = true := by decide
/-- Vectors 2.8/8 and 2.8/10. -/
theorem test_ldF : ran (withRegs [(0, 0x0A)]) 0xF029 (fun t => t.I == 0x0032) = true ∧
    ran (withRegs [(0, 0x1F)]) 0xF029 (fun t => t.I == 0x004B) = true := by decide
/-- Vector E6. -/
theorem test_ldB : ran { withRegs [(0, 0x7B)] with I := 0x0300 } 0xF033
    (fun t => t.mem.readRun 0x300 3 == [1, 2, 3] && t.I == 0x0300 && t.pc == 0x0202) = true := by decide
/-- Vectors 2.8/16 and 2.8/17. -/
theorem test_ldB_range : ran { withRegs [(0, 0xFF)] with I := 0x0FFD } 0xF033 (fun t => t.mem.readRun 0xFFD 3 == [2, 5, 5]) = true ∧
    ran { withRegs [(0, 0xFF)] with I := 0x0FFE } 0xF033
      (fun t => t.FAULT.kind == .addressOutOfBounds && t.FAULT.addr == 0x1000 && t.mem.readRun 0xFFE 2 == [0, 0]) = true := by decide
/-- Vector 2.8/19. -/
theorem test_storeRegs : ran { withRegs [(0, 0x11), (1, 0x22), (2, 0x33), (3, 0x44)] with I := 0x0300 } 0xF255
    (fun t => t.mem.readRun 0x300 4 == [0x11, 0x22, 0x33, 0x00] && t.I == 0x0300) = true := by decide
/-- Vector 2.8/29: the font area is writable, and a byte equal to its reset contents is not listed. -/
theorem test_storeRegs_canonical : ran { withRegs [(0, 0xF0), (1, 0x34)] with I := 0x0000 } 0xF155
    (fun t => t.mem == [(1, 0x34), (0x200, 0xF1), (0x201, 0x55)]) = true := by decide
/-- Vector 2.8/23. -/
theorem test_loadRegs : ran (withBytes { withRegs [(3, 0x77)] with I := 0x0300 } 0x300 [0x0A, 0x0B, 0x0C, 0x0D]) 0xF265
    (fun t => t.V.toList.take 4 == [0x0A, 0x0B, 0x0C, 0x77] && t.I == 0x0300) = true := by decide
/-- Vector 2.8/26. -/
theorem test_loadRegs_range : ran { State.reset with I := 0x0FF1 } 0xFF65
    (fun t => t.FAULT.kind == .addressOutOfBounds && t.FAULT.addr == 0x1000 && t.V == State.reset.V) = true := by decide

/-! ### Reset and load (section 2.9) -/

/-- Vectors 2.9/6 and 2.9/7. -/
theorem test_reset : after (step { withBytes State.reset 0 [0x12] with KEY := 0x0010#16, DT := 9, SP := 3, FB := State.reset.FB.flip 5, agenda := [.reset] })
    (fun t => decide (t = State.reset)) = true := by decide
/-- Vector E2, the reload. -/
theorem test_load : after (step { State.reset with agenda := [.load [0xAB]] })
    (fun t => t.mem.readRun 0x200 3 == [0xAB, 0x00, 0x00]) = true := by decide
/-- Vector 2.9/5. -/
theorem test_load_twice_refused : refusedLoad (run 1 { State.reset with agenda := [.load [1], .load [2]] }) = true ∧
    refusedLoad (run 1 { State.reset with agenda := [.load [], .load [2]] }) = true ∧
    refusedLoad (run 1 { State.reset with agenda := [.load [0x00, 0x00], .load [2]] }) = true := by decide
/-- R242: a tick or a key release that changes nothing keeps the state fresh; a key pressed and released does not. -/
theorem test_load_after_idle_operations :
    refusedLoad (run 2 { State.reset with agenda := [.tickTimers, .setKey 4 false, .load [2]] }) = false ∧
    refusedLoad (run 2 { State.reset with agenda := [.setKey 4 true, .setKey 4 false, .load [2]] }) = true := by decide

/-! ### Witnesses: states and operands that meet the hypotheses of the obligations, one conjunct per clause, at boundary values -/

/-- A state at the last fetchable address holding a placed word. -/
def atEnd (w : Nat) : State := { State.reset with pc := 0x0FFE }.withFetchWord 16 w

theorem witness_StepRunsTheDecodedInstruction : (atEnd 0x6A7B).FAULT.kind = .none ∧ (atEnd 0x6A7B).pc.toNat = 0xFFE ∧
    decode [(atEnd 0x6A7B).mem.read 0xFFE, (atEnd 0x6A7B).mem.read 0xFFF] = .ok (.ldImm 0xA 0x7B#8, []) ∧ (atEnd 0x6A7B).agenda = [] ∧
    ({ atEnd 0x6A7B with agenda := [.step, .tickTimers] } : State).agenda = .step :: [.tickTimers] := by decide
theorem witness_FetchPastTheEndFaults :
    ∃ s u : State, s.FAULT.kind = .none ∧ s.pc.toNat = 0xFFF ∧ s.agenda = [] ∧ u.FAULT.kind = .none ∧ u.pc.toNat = 0xFFFF ∧
    u.agenda = .step :: [.reset] :=
  ⟨{ State.reset with pc := 0x0FFF }, { State.reset with pc := 0xFFFF, agenda := [.step, .reset] }, by decide⟩
theorem witness_PlacedWordIsRunNext : ∃ s : State, s.mem.wf ∧ 65535 < 65536 ∧ s.pc.toNat = 0xFFE :=
  ⟨{ State.reset with pc := 0x0FFE }, by decide⟩
theorem witness_StoredWordIsFetchedAtOnce : ∃ s : State, s.mem.wf ∧ s.I.toNat = 0xFFE := ⟨{ State.reset with I := 0x0FFE }, by decide⟩
theorem witness_DecodeOfEncodeIsTheInstruction : (Instr.drw 0xF 0x0 0xF#4).wf = true ∧ (Instr.sys 0x0E1#12).wf = true := by decide
theorem witness_JumpSetsPc : ∃ (s t : State), s.pc.toNat = (0x200#12).toNat ∧ exec (.jp 0xFFF#12) s = .next t ∧ t.FAULT.kind = .none ∧
    t.agenda = [] := ⟨State.reset, _, by decide, rfl, by decide, by decide⟩
theorem witness_CallPushesItsAddress : ({ State.reset with SP := 15 } : State).SP.val < 16 ∧ ({ State.reset with SP := 16 } : State).SP.val = 16 := by
  decide
theorem witness_ReturnPopsAndAdvances : ({ State.reset with SP := 16 } : State).SP.val = 15 + 1 ∧
    ({ State.reset with SP := 1 } : State).SP.val = 0 + 1 ∧ State.reset.SP.val = 0 := by decide
theorem witness_ReturnUndoesCall : ({ State.reset with SP := 15 } : State).SP.val < 16 := by decide
theorem witness_UnrecognizedWordsWarnAndAdvance : ∀ nnn ∈ [0x000#12, 0x0DF#12, 0x0E1#12, 0x0ED#12, 0x0EF#12, 0xFFF#12],
    nnn ≠ 0x0E0#12 ∧ nnn ≠ 0x0EE#12 := by decide
theorem witness_JumpV0FollowsItsMode : State.reset.bnnnMode = .unrecognized ∧
    ({ State.reset with bnnnMode := .jumpV0 } : State).bnnnMode = .jumpV0 := by decide
theorem witness_SkipsWriteOnlyPc : IsSkip (.seImm 0 0#8) ∧ ∃ s t u v : State, s.pc = 0x0FFC#16 ∧ exec (.seImm 0 0#8) s = .next t ∧
    t.pc = s.pc + 4#16 ∧ 0x1000 ≤ t.pc.toNat ∧ t.FAULT.kind = .none ∧ t.agenda = [] ∧ u.pc = 0x0FFE#16 ∧
    exec (.sneImm 0 0#8) u = .next v ∧ v.pc = 0x1000#16 :=
  ⟨trivial, { State.reset with pc := 0x0FFC }, _, { State.reset with pc := 0x0FFE }, _, by decide, rfl, by decide, by decide, by decide,
    by decide, by decide, rfl, by decide⟩
theorem witness_skip_conditions : ((withRegs [(3, 0x2A)]).reg 3).toNat = (0x2A#8).toNat ∧ ((withRegs [(3, 0x2A)]).reg 3).toNat ≠ (0x2B#8).toNat ∧
    ((withRegs [(3, 0x2A)]).reg 3).toNat ≠ ((withRegs [(3, 0x2A)]).reg 4).toNat ∧ (State.reset.reg 3).toNat = (State.reset.reg 4).toNat ∧
    (((withRegs [(1, 0x0F)]).reg 1).toNat ≤ 15 ∧
      ({ withRegs [(1, 0x0F)] with KEY := 0x8000#16 } : State).KEY.getLsbD ((withRegs [(1, 0x0F)]).reg 1).toNat = true) ∧
    ¬ ((withRegs [(1, 0x10)]).reg 1).toNat ≤ 15 := by decide
theorem witness_RandomIsAMaskedDraw : ({ State.reset with drawQueue := [0xA7#8] } : State).drawQueue = 0xA7#8 :: [] := by decide
theorem witness_alu_flags : 255 < ((withRegs [(1, 0xFF), (2, 0x01)]).reg 1).toNat + ((withRegs [(1, 0xFF), (2, 0x01)]).reg 2).toNat ∧
    ¬ 255 < ((withRegs [(1, 0xFE), (2, 0x01)]).reg 1).toNat + ((withRegs [(1, 0xFE), (2, 0x01)]).reg 2).toNat ∧
    (State.reset.reg 2).toNat ≤ (State.reset.reg 1).toNat ∧ ¬ ((withRegs [(2, 0x01)]).reg 2).toNat ≤ ((withRegs [(2, 0x01)]).reg 1).toNat ∧
    128 ≤ ((withRegs [(1, 0x80)]).reg 1).toNat ∧ ¬ 128 ≤ ((withRegs [(1, 0x7F)]).reg 1).toNat := by decide
theorem witness_FlagWritersLeaveZeroOrOne : WritesFlag (.shl 0xF) ∧ ∃ s t : State, s.FAULT.kind = .none ∧ exec (.shl 0xF) s = .next t ∧
    t.FAULT.kind = .none := ⟨trivial, withRegs [(0xF, 0x80)], _, by decide, rfl, by decide⟩
theorem witness_DrawXorsTheSprite : SpriteInRange { State.reset with I := 0x0FFF } 1#4 ∧ SpriteInRange { State.reset with I := 0x10FE } 0#4 ∧
    SpriteInRange { State.reset with I := 0x0FF1 } 0xF#4 ∧ ¬ SpriteInRange { State.reset with I := 0x0FF2 } 0xF#4 := by
  simp [SpriteInRange]
theorem witness_sprite_hits : SpriteHits (withRegs [(0, 0x3F), (1, 0x1F)]) 0 1 1#4 2047 ∧ SpriteHits (withRegs [(0, 0x3F), (1, 0x1F)]) 0 1 1#4 1984 ∧
    ¬ SpriteHits (withRegs [(0, 0x3F), (1, 0x1F)]) 0 1 0#4 2047 := by
  refine ⟨⟨0, 0, by decide⟩, ⟨0, 1, by decide⟩, ?_⟩
  rintro ⟨row, _, h, _⟩
  exact absurd h (Nat.not_lt_zero row)
theorem witness_DrawingTwiceRestoresTheScreen : SpriteInRange State.reset 5#4 ∧ (0 : Reg) ≠ VF ∧ (1 : Reg) ≠ VF ∧
    SpriteNotEmpty State.reset 5#4 ∧ ∀ k, SpriteHits State.reset 0 1 5#4 k → State.reset.pixel k = false := by
  refine ⟨.inr (by decide), by decide, by decide, ⟨0, 0, by decide⟩, fun k _ => ?_⟩
  simp only [State.pixel, Frame.cell, State.reset]
  split <;> simp
theorem witness_KeyWaitTakesTheLowestKey : (({ State.reset with KEY := 0x8000#16 } : State).KEY.getLsbD 15 = true ∧
    ∀ j, j < 15 → ({ State.reset with KEY := 0x8000#16 } : State).KEY.getLsbD j = false) ∧
    (∀ k, k < 16 → State.reset.KEY.getLsbD k = false) := by decide
theorem witness_TickLowersTimersToZero : ({ State.reset with agenda := [.tickTimers] } : State).agenda = .tickTimers :: [] := by decide
theorem witness_TimerIsZeroAfterItsTicks : ({ State.reset with DT := 0x02, agenda := [.tickTimers, .tickTimers, .step] } : State).agenda =
    List.replicate 2 .tickTimers ++ [.step] := by decide
theorem witness_KeypadIsWrittenFromOutsideOnly : ({ State.reset with agenda := [.setKey 15 true] } : State).agenda = .setKey 15 true :: [] ∧
    (∀ x, Instr.cls ≠ .skp x ∧ Instr.cls ≠ .sknp x ∧ Instr.cls ≠ .ldVxK x) ∧ (∃ t, exec .cls State.reset = .next t) ∧
    (∃ s t : State, s.agenda = .reset :: [] ∧ step s = .next t ∧ t.KEY ≠ s.KEY) :=
  ⟨by decide, by simp, ⟨_, rfl⟩, { State.reset with KEY := 1#16, agenda := [.reset] }, _, by decide, rfl, by decide⟩
theorem witness_TimersAreReadOnlyWhereNamed : (∀ x, Instr.cls ≠ .ldStVx x) ∧ (∀ x, Instr.cls ≠ .ldVxDt x ∧ Instr.cls ≠ .ldDtVx x) ∧
    (∃ t, exec .cls State.reset = .next t) ∧ (∃ t, exec (.ldStVx 0xF) State.reset = .next t) ∧
    (∃ t, exec (.ldDtVx 0xF) State.reset = .next t) := ⟨by simp, by simp, ⟨_, rfl⟩, ⟨_, rfl⟩, ⟨_, rfl⟩⟩
theorem witness_LoadIndexWritesIndex : ∃ t u, exec (.ldI 0xFFF#12) State.reset = .next t ∧ exec (.ldB 0) t = .next u :=
  ⟨_, _, rfl, rfl⟩
theorem witness_StoreDecimalDigits : State.reset.mem.wf ∧ ({ State.reset with I := 0x0FFD } : State).I.toNat + 2 ≤ 4095 := by decide
theorem witness_StoreRegisterBlock : ∃ (x : Reg) (s : State), s.mem.wf ∧ s.I.toNat + x.val = 4095 := ⟨0xF, { State.reset with I := 0x0FF0 }, by decide⟩
theorem witness_LoadRegisterBlock : ∃ (x : Reg) (s : State), s.I.toNat + x.val = 4095 := ⟨0xF, { State.reset with I := 0x0FF0 }, by decide⟩
theorem witness_LoadBlockUndoesStoreBlock : ∃ (x : Reg) (s : State), s.mem.wf ∧ s.I.toNat + x.val = 4095 := ⟨0, { State.reset with I := 0x0FFF }, by decide⟩
theorem witness_MemoryInstructionsFaultOutOfRange : (0 < (2#4).toNat ∧ 4095 < ({ State.reset with I := 0x0FFF } : State).I.toNat + (2#4).toNat - 1) ∧
    4095 < ({ State.reset with I := 0x0FFE } : State).I.toNat + 2 ∧ 4095 < ({ State.reset with I := 0x0FF1 } : State).I.toNat + (0xF : Reg).val := by
  decide
theorem witness_FaultsHaveTheirExactConditions : ∃ t u v w : State, State.reset.FAULT.kind = .none ∧ exec .ret State.reset = .next t ∧
    exec (.call 0#12) { State.reset with SP := 16 } = .next u ∧ exec (.drw 0 0 1#4) { State.reset with I := 0x1000 } = .next v ∧
    exec (.loadRegs 1) { State.reset with I := 0x0FFF } = .next w := ⟨_, _, _, _, by decide, rfl, rfl, rfl, rfl⟩
theorem witness_FaultsArePrecise : ∃ t u : State, exec (.storeRegs 1) { State.reset with I := 0x0FFF } = .next t ∧
    exec (.storeRegs 0) { State.reset with I := 0x0FFF } = .next u := ⟨_, _, rfl, rfl⟩
/-- A faulted state with the given agenda. -/
def faultedWith (agenda : List Op) : State := { State.reset with FAULT := { kind := .stackUnderflow, addr := 0x0000#16 }, agenda := agenda }
theorem witness_FaultedMachineWaitsForReset : ∀ ops ∈ [[], [Op.step], [Op.tickTimers], [Op.setKey 0 true], [Op.load []], [Op.reset]],
    (faultedWith ops).FAULT.kind ≠ .none ∧ (faultedWith ops).agenda = ops := by decide
theorem witness_OnlyLoadOffAFreshStateIsRefused : (∃ r, step { State.reset with pc := 0x0202, agenda := [.load []] } = .refused r) ∧
    ¬ IsFresh { State.reset with pc := 0x0202 } ∧ IsFresh State.reset ∧ ¬ IsFresh { State.reset with untouched := false } ∧
    ∃ t, applyOp (.load []) State.reset = .next t :=
  ⟨⟨_, rfl⟩, by unfold IsFresh; decide, rfl, by unfold IsFresh; decide, _, rfl⟩
theorem witness_ResetLeavesTheFreshState : (faultedWith [.reset, .step]).agenda = .reset :: [.step] := by decide
theorem witness_LoadCopiesTheRom : ({ State.reset with agenda := [.load [0xAB#8]] } : State).agenda = .load [0xAB#8] :: [] ∧
    IsFresh { State.reset with agenda := [.load [0xAB#8]] } ∧ (List.replicate 0xE00 (0x01#8)).length ≤ 0xE00 ∧
    0xE00 < (List.replicate 0xE01 (0x01#8)).length := ⟨by decide, rfl, by rw [List.length_replicate], by rw [List.length_replicate]; decide⟩
theorem witness_ReloadLeavesNoResidue : (faultedWith [.reset, .load [0xAB#8]]).agenda = .reset :: .load [0xAB#8] :: [] ∧
    ([0xAB#8] : List Byte).length ≤ 0xE00 := by decide
/-- A state in the middle of a call, with a byte stored. -/
def midRun : State := { withBytes State.reset 0x300 [0x01] with pc := 0x0300, SP := 1, STACK := State.reset.STACK.set 0 0x0200, untouched := false }
theorem witness_EveryStepKeepsTheInvariants : midRun.Inv ∧ ∃ t, step midRun = .next t := by
  refine ⟨⟨by decide, by decide, ?_, by decide, by decide, by decide⟩, ⟨_, rfl⟩⟩
  intro k h hk
  have : k = 0 := Nat.lt_one_iff.1 hk
  subst this
  exact (by decide : (0x0200#16).toNat ≤ 0xFFE)
theorem witness_EachPartHasItsWriters : ∃ t u v w : State, exec (.loadRegs 2) State.reset = .next t ∧ t.reg 2 ≠ State.reset.reg 2 ∧
    exec .ret State.reset = .next u ∧ u.FAULT ≠ State.reset.FAULT ∧ exec (.ldVxK 2) State.reset = .next v ∧ v.pc = State.reset.pc ∧
    exec (.call 0x200#12) State.reset = .next w ∧ w.pc = State.reset.pc :=
  ⟨_, _, _, _, rfl, by decide, rfl, by decide, rfl, by decide, rfl, by decide⟩
theorem witness_PcAdvancesByTwoOrFour : ∃ t u v : State, State.reset.FAULT.kind = .none ∧ exec .cls State.reset = .next t ∧ t.FAULT.kind = .none ∧
    ¬ MovesPc .cls ∧ IsSkip (.skp 0) ∧ exec .ret midRun = .next u ∧ u.FAULT.kind = .none ∧ exec (.ldVxK 0) State.reset = .next v ∧
    v.FAULT.kind = .none := ⟨_, _, _, by decide, rfl, by decide, fun h => h, trivial, rfl, by decide, rfl, by decide⟩
theorem witness_LowMemoryChangesOnlyByStores_reset : ∃ s t : State, s.mem.wf ∧ s.agenda = .reset :: [] ∧ step s = .next t ∧
    t.mem.read 0x000 ≠ s.mem.read 0x000 :=
  ⟨{ withBytes State.reset 0x000 [0x12] with agenda := [.reset] }, _, by decide, by decide, rfl, by decide⟩
theorem witness_LowMemoryChangesOnlyByStores : ∃ s t : State, s.mem.wf ∧ step s = .next t ∧ t.mem.read 0x1FF ≠ s.mem.read 0x1FF :=
  ⟨({ withRegs [(0, 0x11)] with I := 0x01FF }).withFetchWord 16 0xF055, _, by decide, rfl, by decide⟩
theorem witness_WarningsHaveNoEffect : ∃ t, step (State.reset.withFetchWord 16 0xFFFF) = .next t ∧ t.warnings = [0xFFFF#16] := ⟨_, rfl, by decide⟩
theorem witness_CanonicalMemoriesThatReadAlikeAreEqual : ∃ m m' : Memory, m.wf ∧ m'.wf ∧ (∀ a, m.read a = m'.read a) ∧ m ≠ [] :=
  ⟨[(0xFFF, 0x01#8)], [(0xFFF, 0x01#8)], by decide, by decide, fun _ => rfl, by decide⟩

end Sys2Proof.Tests
end

