-- ==== Sys2Proof/Proofs/Immediate.lean ====
section
/-! The register-immediate instructions (spec 42_immediate_random.md): the words of format XNN decoded, and the frame of an
instruction that writes one register and goes on to the next word. -/

namespace Sys2Proof.Proofs

open Sys2Proof.Machine Sys2Proof.Claims Sys2Proof.Laws

/-- The digits the claims write out are the encoder's format XNN (R71). -/
theorem hex2Byte_eq_wordXNN (family : Nat) (x : Reg) (nn : Nat) : hex2Byte family x nn = wordXNN family x nn := rfl

/-- The arm of the decode tree for family 0x6 (R78). -/
theorem decodeWord_of_family_6 {op : Word} (h : slice op 15 12 = 0x6) : decodeWord op = .ldImm (fieldX op) (fieldNN op) := by
  simp only [decodeWord, h]

theorem decodeWord_ldImm (x : Reg) (nn : Byte) : decodeWord (wordXNN 0x6 x nn.toNat) = .ldImm x nn := by
  have family : slice (wordXNN 0x6 x nn.toNat) 15 12 = 0x6 := FamilyDigit.wordXNN_family _ _ _ (by decide) x.isLt nn.isLt
  rw [decodeWord_of_family_6 family, fieldX_wordXNN _ _ _ nn.isLt, fieldNN_wordXNN]

/-- Writing one register and advancing touches the registers and `pc` only. -/
theorem unchanged_writeReg_advance (s : State) (x : Reg) (v : Byte) :
    Unchanged [.registers, .pc] s (s.writeReg x v).advance where
  registers h := absurd (by decide) h
  index _ := rfl
  pc h := absurd (by decide) h
  stack _ := ⟨rfl, rfl⟩
  memory _ _ := rfl
  delayTimer _ := rfl
  soundTimer _ := rfl
  display _ _ := rfl
  keypad _ := rfl
  latch _ := rfl
  draws _ := ⟨rfl, rfl⟩
  warnings _ := rfl
  agenda _ := rfl
  freshness _ := rfl
  bnnnMode := rfl

theorem writesOnly_writeReg_advance (s : State) (x : Reg) (v : Byte) : WritesOnly x v s (s.writeReg x v).advance :=
  ⟨s.reg_writeReg_same x v, fun r hr => s.reg_writeReg_other x r v hr, rfl, unchanged_writeReg_advance s x v⟩

theorem exec_ldImm (x : Reg) (nn : Byte) (s : State) : exec (.ldImm x nn) s = .next (s.writeReg x nn).advance := rfl

/-- Settles O19: the word decodes field by field, and the one next state is a register write followed by an advance. -/
theorem loadImmediateWritesRegister : Obligations.LoadImmediateWritesRegister := by
  intro x nn s
  rw [hex2Byte_eq_wordXNN]
  exact ⟨decodeWord_ldImm x nn, _, exec_ldImm x nn s, writesOnly_writeReg_advance s x nn⟩

end Sys2Proof.Proofs
end

