-- ==== Sys2Proof/Proofs/Display.lean ====
section
/-! CLS (spec 44_display.md R160): the cleared framebuffer, and the frame of an instruction that replaces the framebuffer and goes on
to the next word. -/

namespace Sys2Proof.Proofs

open Sys2Proof.Machine Sys2Proof.Claims Sys2Proof.Laws

/-- Inside the framebuffer the row is all zeros; above cell 2047 there is no cell to be set. -/
theorem cell_clear (k : Nat) : Frame.clear.cell k = false := by
  unfold Frame.cell Frame.clear
  split
  case isTrue => rw [Vector.getElem_replicate, BitVec.getLsbD_zero]
  case isFalse => rfl

theorem pixel_setFB_advance (s : State) (fb : Frame) (k : Nat) : (s.setFB fb).advance.pixel k = fb.cell k := rfl

/-- Replacing the framebuffer and advancing touches the display and `pc` only. -/
theorem unchanged_setFB_advance (s : State) (fb : Frame) : Unchanged [.display, .pc] s (s.setFB fb).advance where
  registers _ _ := rfl
  index _ := rfl
  pc h := absurd (by decide) h
  stack _ := ⟨rfl, rfl⟩
  memory _ _ := rfl
  delayTimer _ := rfl
  soundTimer _ := rfl
  display h := absurd (by decide) h
  keypad _ := rfl
  latch _ := rfl
  draws _ := ⟨rfl, rfl⟩
  warnings _ := rfl
  agenda _ := rfl
  freshness _ := rfl
  bnnnMode := rfl

/-- The word of R160 selects CLS (R74). -/
theorem decodeWord_cls : decodeWord (hex4 0x0 0x0 0xE 0x0) = .cls := by decide

theorem exec_cls (s : State) : exec .cls s = .next (s.setFB Frame.clear).advance := rfl

/-- Settles O27: the one next state has the cleared framebuffer and is advanced; every cell of that framebuffer is 0. -/
theorem clearScreenClearsEveryCell : Obligations.ClearScreenClearsEveryCell := by
  intro s
  have cleared : ∀ k, k < 2048 → (s.setFB Frame.clear).advance.pixel k = false := fun k _ => by
    rw [pixel_setFB_advance, cell_clear]
  exact ⟨decodeWord_cls, _, exec_cls s, cleared, rfl, unchanged_setFB_advance s Frame.clear⟩

end Sys2Proof.Proofs
end

