-- ==== Sys2Proof/Proofs/IndexMemory.lean ====
section
/-! The loads of the index register (spec 46_index_memory.md R180, R182): the words ANNN and FX29 decoded, the address each one
computes, and the frame of an instruction that writes `I` and goes on to the next word. -/

namespace Sys2Proof.Proofs

open Sys2Proof.Machine Sys2Proof.Claims Sys2Proof.Laws

/-- The digits the claims write out are the encoder's format NNN (R71). -/
theorem hexAddr_eq_wordNNN (family nnn : Nat) : hexAddr family nnn = wordNNN family nnn := rfl

/-- Four digits of which the last two are an instruction's low byte are the encoder's format XNN (R71). -/
theorem hex4_eq_wordXNN (family x hi lo : Nat) : hex4 family x hi lo = wordXNN family x (hi * 0x10 + lo) :=
  congrArg (BitVec.ofNat 16) (Nat.add_assoc _ _ _)

/-- The arm of the decode tree for family 0xA (R78). -/
theorem decodeWord_of_family_A {op : Word} (h : slice op 15 12 = 0xA) : decodeWord op = .ldI (fieldNNN op) := by
  simp only [decodeWord, h]

/-- The arm of the decode tree for family 0xF (R78), whose second level is the low byte (R77). -/
theorem decodeWord_of_family_F {op : Word} (h : slice op 15 12 = 0xF) : decodeWord op = decodeFamilyF op := by
  simp only [decodeWord, h]

/-- The low byte 0x29 of family 0xF (R77). -/
theorem decodeFamilyF_of_lowByte_29 {op : Word} (h : slice op 7 0 = 0x29) : decodeFamilyF op = .ldF (fieldX op) := by
  simp [decodeFamilyF, h]

theorem decodeWord_ldI (nnn : BitVec 12) : decodeWord (wordNNN 0xA nnn.toNat) = .ldI nnn := by
  have family : slice (wordNNN 0xA nnn.toNat) 15 12 = 0xA := FamilyDigit.ldI nnn
  rw [decodeWord_of_family_A family, fieldNNN_wordNNN]

theorem decodeWord_ldF (x : Reg) : decodeWord (wordXNN 0xF x 0x29) = .ldF x := by
  have family : slice (wordXNN 0xF x 0x29) 15 12 = 0xF := FamilyDigit.ldF x
  have lowByte : slice (wordXNN 0xF x 0x29) 7 0 = 0x29 := lowByte_wordXNN _ x _ (by decide)
  rw [decodeWord_of_family_F family, decodeFamilyF_of_lowByte_29 lowByte, fieldX_wordXNN _ x _ (by decide)]

/-- Zero extension keeps the number (R7). -/
theorem toNat_address12 (nnn : BitVec 12) : (address12 nnn).toNat = nnn.toNat :=
  BitVec.toNat_setWidth_of_le (by decide)

/-- The glyph addresses 0, 5, ..., 75 (R182): the mask is the remainder by 16, and the product fits the word. -/
theorem toNat_glyphAddress (v : Byte) : (glyphAddress v).toNat = v.toNat % 16 * 5 := by
  have mask : (v &&& 0x0F#8).toNat = v.toNat % 16 := Nat.and_two_pow_sub_one_eq_mod v.toNat 4
  have fits : v.toNat % 16 * 5 < 2 ^ 16 := by omega
  rw [glyphAddress, mask, BitVec.toNat_ofNat, Nat.mod_eq_of_lt fits]

/-- Writing the index register and advancing touches `I` and `pc` only. -/
theorem unchanged_setI_advance (s : State) (v : Word) : Unchanged [.index, .pc] s (s.setI v).advance where
  registers _ _ := rfl
  index h := absurd (by decide) h
  pc h := absurd (by decide) h
  stack _ := ⟨rfl, rfl⟩
  memory _ _ := rfl
  delayTimer _ := rfl
  soundTimer _ := rfl
  display _ _ := rfl
  keypad _ := rfl
  latch _ := rfl
  draws _ := ⟨rfl, rfl⟩
  warnings _ := rfl
  agenda _ := rfl
  freshness _ := rfl
  bnnnMode := rfl

theorem exec_ldI (nnn : BitVec 12) (s : State) : exec (.ldI nnn) s = .next (s.setI (address12 nnn)).advance := rfl

theorem exec_ldF (x : Reg) (s : State) : exec (.ldF x) s = .next (s.setI (glyphAddress (s.reg x))).advance := rfl

theorem exec_ldB (x : Reg) (s : State) : exec (.ldB x) s = execLdB x s := rfl

/-- FX33 with fewer than three cells from `I` on raises AddressOutOfBounds (R183; D6, D1). -/
theorem ldB_latches_out_of_range (x : Reg) {s : State} (h : 4095 < s.I.toNat + 2) :
    Completes (.ldB x) s fun t => t.FAULT.kind = .addressOutOfBounds :=
  ⟨_, (exec_ldB x s).trans (execLdB_fault x h), rfl⟩

/-- Settles O37: `I` takes the zero-extended operand, so 0xFFF leaves FX33 no room for its second and third byte. -/
theorem loadIndexWritesIndex : Obligations.LoadIndexWritesIndex := by
  intro nnn s
  rw [hexAddr_eq_wordNNN]
  have index : (s.setI (address12 nnn)).advance.I.toNat = nnn.toNat := toNat_address12 nnn
  refine ⟨decodeWord_ldI nnn, _, exec_ldI nnn s, index, ?bound, rfl, unchanged_setI_advance s _, ?noRoom⟩
  case bound => omega
  case noRoom =>
    rintro rfl x
    apply ldB_latches_out_of_range
    rw [index]
    decide

/-- At reset memory holds the font (R24), glyph 0 first. -/
theorem readRun_reset_glyph_zero : State.reset.mem.readRun 0 5 = [0xF0#8, 0x90#8, 0x90#8, 0x90#8, 0xF0#8] := by decide

/-- Settles O39: the low byte selects LD F, whose one next state is a write of the glyph address to `I` followed by an advance. -/
theorem loadFontAddress : Obligations.LoadFontAddress := by
  refine ⟨fun x s => ?_, readRun_reset_glyph_zero⟩
  rw [hex4_eq_wordXNN]
  exact ⟨decodeWord_ldF x, _, exec_ldF x s, toNat_glyphAddress (s.reg x), rfl, unchanged_setI_advance s _⟩

end Sys2Proof.Proofs
end

