-- ==== Sys2Proof/Proofs/Frame.lean ====
section
/-! Frames: rules that build a claim `Unchanged` from the updates an instruction is made of, one rule per update of the state and one
that puts two updates after one another. -/

namespace Sys2Proof.Claims

open Sys2Proof.Machine

theorem Unchanged.refl (c : List Part) (s : State) : Unchanged c s s := by constructor <;> simp

/-- Two updates after one another may change what either may change. -/
theorem Unchanged.trans {c d : List Part} {s t u : State} (h : Unchanged c s t) (g : Unchanged d t u) : Unchanged (c ++ d) s u := by
  constructor
  case bnnnMode => exact g.bnnnMode.trans h.bnnnMode
  all_goals
    intro part
    rw [List.mem_append, not_or] at part
    obtain ⟨hc, hd⟩ := part
  case registers => exact fun r => (g.registers hd r).trans (h.registers hc r)
  case index => exact (g.index hd).trans (h.index hc)
  case pc => exact (g.pc hd).trans (h.pc hc)
  case stack => exact ⟨(g.stack hd).1.trans (h.stack hc).1, (g.stack hd).2.trans (h.stack hc).2⟩
  case memory => exact fun a => (g.memory hd a).trans (h.memory hc a)
  case delayTimer => exact (g.delayTimer hd).trans (h.delayTimer hc)
  case soundTimer => exact (g.soundTimer hd).trans (h.soundTimer hc)
  case display => exact fun k => (g.display hd k).trans (h.display hc k)
  case keypad => exact (g.keypad hd).trans (h.keypad hc)
  case latch => exact (g.latch hd).trans (h.latch hc)
  case draws => exact ⟨(g.draws hd).1.trans (h.draws hc).1, (g.draws hd).2.trans (h.draws hc).2⟩
  case warnings => exact (g.warnings hd).trans (h.warnings hc)
  case agenda => exact (g.agenda hd).trans (h.agenda hc)
  case freshness => exact (g.freshness hd).trans (h.freshness hc)

/-- A frame that allows more changes is weaker. -/
theorem Unchanged.mono {c d : List Part} {s t : State} (h : Unchanged c s t) (sub : c ⊆ d) : Unchanged d s t where
  registers p := h.registers (mt (@sub _) p)
  index p := h.index (mt (@sub _) p)
  pc p := h.pc (mt (@sub _) p)
  stack p := h.stack (mt (@sub _) p)
  memory p := h.memory (mt (@sub _) p)
  delayTimer p := h.delayTimer (mt (@sub _) p)
  soundTimer p := h.soundTimer (mt (@sub _) p)
  display p := h.display (mt (@sub _) p)
  keypad p := h.keypad (mt (@sub _) p)
  latch p := h.latch (mt (@sub _) p)
  draws p := h.draws (mt (@sub _) p)
  warnings p := h.warnings (mt (@sub _) p)
  agenda p := h.agenda (mt (@sub _) p)
  freshness p := h.freshness (mt (@sub _) p)
  bnnnMode := h.bnnnMode

end Sys2Proof.Claims

namespace Sys2Proof.Proofs

open Sys2Proof.Machine Sys2Proof.Claims

theorem unchanged_writeReg (s : State) (r : Reg) (v : Byte) : Unchanged [.registers] s (s.writeReg r v) := by
  constructor <;> simp [State.pixel]

theorem unchanged_writeRegBlock (s : State) (bs : List Byte) : Unchanged [.registers] s (s.writeRegBlock bs) := by
  constructor <;> simp [State.pixel]

theorem unchanged_setPc (s : State) (v : Word) : Unchanged [.pc] s (s.setPc v) := by constructor <;> simp [State.pixel]

theorem unchanged_advance (s : State) : Unchanged [.pc] s s.advance := by constructor <;> simp [State.pixel]

theorem unchanged_skipIf (s : State) (c : Bool) : Unchanged [.pc] s (s.skipIf c) := by constructor <;> simp [State.pixel]

theorem unchanged_setDT (s : State) (v : Byte) : Unchanged [.delayTimer] s (s.setDT v) := by constructor <;> simp [State.pixel]

theorem unchanged_setST (s : State) (v : Byte) : Unchanged [.soundTimer] s (s.setST v) := by constructor <;> simp [State.pixel]

theorem unchanged_setFB (s : State) (fb : Frame) : Unchanged [.display] s (s.setFB fb) := by constructor <;> simp

theorem unchanged_setMem (s : State) (m : Memory) : Unchanged [.memory] s (s.setMem m) := by constructor <;> simp [State.pixel]

theorem unchanged_warn (s : State) (op : Word) : Unchanged [.warnings] s (s.warn op) := by constructor <;> simp [State.pixel]

theorem unchanged_consumeDraw (s : State) : Unchanged [.draws] s s.consumeDraw := by constructor <;> simp [State.pixel]

theorem unchanged_raise (s : State) (kind : FaultKind) (a : Nat) : Unchanged [.latch] s (s.raise kind a) := by
  constructor <;> simp [State.pixel]

theorem unchanged_touch (s : State) : Unchanged [.freshness] s s.touch := by constructor <;> simp [State.pixel]

theorem unchanged_tickTimers (s : State) : Unchanged [.delayTimer, .soundTimer, .freshness] s s.tickTimers := by
  constructor <;> simp [State.pixel]

theorem unchanged_setKey (s : State) (k : Fin 16) (b : Bool) : Unchanged [.keypad, .freshness] s (s.setKey k b) := by
  constructor <;> simp [State.pixel]

/-- Other stack cells and another stack pointer, as a push or a pop leaves them. -/
theorem unchanged_stack (s : State) (cells : Vector Word 16) (sp : Fin 17) :
    Unchanged [.stack] s { s with STACK := cells, SP := sp } := by
  constructor <;> simp [State.pixel, State.reg]

/-- Another schedule, as taking the oldest operation off leaves it. -/
theorem unchanged_agenda (s : State) (rest : List Op) : Unchanged [.agenda] s { s with agenda := rest } := by
  constructor <;> simp [State.pixel, State.reg]

end Sys2Proof.Proofs
end

