-- ==== Sys2Proof/Proofs/Decode.lean ====
section
/-! Decoding what the encoder wrote (spec 30_encoding.md R70 to R81): the family digit selects the arm of the decode tree, and the fields
come back as they went in. -/

namespace Sys2Proof.Proofs

open Sys2Proof.Laws

/-- The encoded word's first digit, for every instruction: the three formats, each with every family (R71, R73). -/
theorem familyDigit (i : Instr) : FamilyDigit.Statement i := by
  cases i with
  | cls | ret | unrecognized => rfl
  | sys nnn | jp nnn | call nnn | ldI nnn | jpV0 nnn => exact FamilyDigit.wordNNN_family _ _ (by decide) nnn.isLt
  | seImm x nn | sneImm x nn | ldImm x nn | addImm x nn | rnd x nn =>
    exact FamilyDigit.wordXNN_family _ _ _ (by decide) x.isLt nn.isLt
  | skp x | sknp x | ldVxDt x | ldVxK x | ldDtVx x | ldStVx x | addI x | ldF x | ldB x | storeRegs x | loadRegs x =>
    exact FamilyDigit.wordXNN_family _ _ _ (by decide) x.isLt (by decide)
  | seReg x y | ldReg x y | orReg x y | andReg x y | xorReg x y | addReg x y | subReg x y | subnReg x y | sneReg x y =>
    exact FamilyDigit.wordXYN_family _ _ _ _ (by decide) x.isLt y.isLt (by decide)
  | shr x | shl x => exact FamilyDigit.wordXYN_family _ _ _ _ (by decide) x.isLt (by decide) (by decide)
  | drw x y n => exact FamilyDigit.wordXYN_family _ _ _ _ (by decide) x.isLt y.isLt n.isLt

theorem fieldX_wordXNN_byte (f : Nat) (x : Reg) (nn : Byte) : fieldX (wordXNN f x nn.toNat) = x :=
  fieldX_wordXNN f x _ nn.isLt

theorem fieldX_wordXYN_nibble (f : Nat) (x y : Reg) (n : BitVec 4) : fieldX (wordXYN f x y n.toNat) = x :=
  fieldX_wordXYN f x _ _ y.isLt n.isLt

theorem fieldY_wordXYN_nibble (f : Nat) (x y : Reg) (n : BitVec 4) : fieldY (wordXYN f x y n.toNat) = y :=
  fieldY_wordXYN f x y _ n.isLt

theorem slice_family_lt (op : Word) : slice op 15 12 < 16 := Nat.mod_lt _ (by decide)

theorem slice_lowNibble_lt (op : Word) : slice op 3 0 < 16 := Nat.mod_lt _ (by decide)

/-- The words no row but the catch-all matches, family by family (R75, R76, R77). -/
theorem unassigned_iff (op : Word) :
    WellFormed.unassigned op = true ↔
      (slice op 15 12 = 0x8 ∧ slice op 3 0 ∈ [0x8, 0x9, 0xA, 0xB, 0xC, 0xD, 0xF]) ∨
      (slice op 15 12 = 0xE ∧ slice op 7 0 ∉ [0x9E, 0xA1]) ∨
      (slice op 15 12 = 0xF ∧ slice op 7 0 ∉ WellFormed.familyFCodes) := by
  have bits_eq_slice : WellFormed.bits = slice := rfl
  simp [WellFormed.unassigned, bits_eq_slice, or_assoc]

theorem decodeWord_of_unassigned {op : Word} (h : WellFormed.unassigned op = true) : decodeWord op = .unrecognized op := by
  rcases (unassigned_iff op).1 h with ⟨family, low⟩ | ⟨family, low⟩ | ⟨family, low⟩
  · simp only [List.mem_cons, List.not_mem_nil, or_false] at low
    rcases low with low | low | low | low | low | low | low <;> simp only [decodeWord, family, decodeFamily8, low]
  · simp only [List.mem_cons, List.not_mem_nil, or_false, not_or] at low
    simp only [decodeWord, family, decodeFamilyE, low, if_false]
  · simp only [WellFormed.familyFCodes, List.mem_cons, List.not_mem_nil, or_false, not_or] at low
    simp only [decodeWord, family, decodeFamilyF, low, if_false]

/-- A SYS word is neither of the two words family 0 looks at first (R74). -/
theorem decodeFamily0_wordNNN {nnn : BitVec 12} (cls : nnn ≠ 0x0E0#12) (ret : nnn ≠ 0x0EE#12) :
    decodeFamily0 (wordNNN 0x0 nnn.toNat) = .sys nnn := by
  have notWord (op : Word) (h : nnn ≠ fieldNNN op) : wordNNN 0x0 nnn.toNat ≠ op := by
    rintro rfl
    exact h (fieldNNN_wordNNN 0x0 nnn).symm
  rw [decodeFamily0, if_neg (notWord 0x00E0#16 cls), if_neg (notWord 0x00EE#16 ret), fieldNNN_wordNNN]

/-- Decoding is a left inverse of encoding: outside family 0 and the unassigned words, the digit selects the arm and the fields are the
operands. -/
theorem decodeWord_encode (i : Instr) (h : i.wf = true) : decodeWord (encode i) = i := by
  have family : slice (encode i) 15 12 = FamilyDigit.digit i := familyDigit i
  cases i with
  | unrecognized op => exact decodeWord_of_unassigned h
  | sys nnn =>
    obtain ⟨cls, ret⟩ : nnn ≠ 0x0E0#12 ∧ nnn ≠ 0x0EE#12 := by simpa [Instr.wf] using h
    rw [decodeWord, family]
    exact decodeFamily0_wordNNN cls ret
  | _ =>
    rw [decodeWord, family]
    simp [FamilyDigit.digit, encode, decodeFamily0, decodeFamily8, decodeFamilyE, decodeFamilyF, fieldNNN_wordNNN,
      fieldX_wordXNN, fieldX_wordXNN_byte, fieldNN_wordXNN, lowByte_wordXNN, fieldX_wordXYN, fieldX_wordXYN_nibble,
      fieldY_wordXYN, fieldY_wordXYN_nibble, fieldN_wordXYN, lowNibble_wordXYN]

/-- Settles O5: the two bytes of the encoding make the word again, and the word decodes to the instruction. -/
theorem decodeOfEncodeIsTheInstruction : Obligations.DecodeOfEncodeIsTheInstruction := by
  intro i rest h
  have bytes : decode (encodeBytes i ++ rest) = .ok (decodeWord (encode i), rest) := by
    rw [← wordOfBytes_bytes (encode i)]
    rfl
  exact ⟨decodeWord_encode i h, by rw [bytes, decodeWord_encode i h]⟩

end Sys2Proof.Proofs
end

