-- ==== Sys2Proof/Proofs/OpcodeMap.lean ====
section
/-! Every word (spec 30_encoding.md R78 to R81): the word put together again from its fields, the masks of the opcode map on the four
digits, and from both that the decode tree re-encodes to the canonical word and selects the row of the map. -/

namespace Sys2Proof.Proofs

open Sys2Proof.Laws

/-! ### The word from its fields -/

theorem wordNNN_fields {op : Word} {f : Nat} (family : slice op 15 12 = f) : wordNNN f (fieldNNN op).toNat = op := by
  apply BitVec.eq_of_toNat_eq
  have := op.isLt
  simp only [wordNNN, fieldNNN, slice, BitVec.toNat_ofNat] at family ⊢
  omega

theorem wordXNN_fields {op : Word} {f nn : Nat} (family : slice op 15 12 = f) (low : slice op 7 0 = nn) :
    wordXNN f (fieldX op) nn = op := by
  apply BitVec.eq_of_toNat_eq
  have := op.isLt
  simp only [wordXNN, fieldX, slice, Fin.ofNat, BitVec.toNat_ofNat] at family low ⊢
  omega

theorem toNat_fieldNN (op : Word) : (fieldNN op).toNat = slice op 7 0 := by
  simp only [fieldNN, slice, BitVec.toNat_ofNat]
  omega

theorem toNat_fieldN (op : Word) : (fieldN op).toNat = slice op 3 0 := by
  simp only [fieldN, slice, BitVec.toNat_ofNat]
  omega

theorem val_fieldX (op : Word) : (fieldX op).val = slice op 11 8 := by
  simp only [fieldX, slice, Fin.ofNat]
  omega

theorem val_fieldY (op : Word) : (fieldY op).val = slice op 7 4 := by
  simp only [fieldY, slice, Fin.ofNat]
  omega

/-- A word is its four digits. -/
theorem wordXYN_digits (op : Word) : wordXYN (slice op 15 12) (slice op 11 8) (slice op 7 4) (slice op 3 0) = op := by
  apply BitVec.eq_of_toNat_eq
  have := op.isLt
  simp only [wordXYN, slice, BitVec.toNat_ofNat]
  omega

theorem wordXYN_fields {op : Word} {f n : Nat} (family : slice op 15 12 = f) (low : slice op 3 0 = n) :
    wordXYN f (fieldX op) (fieldY op) n = op := by
  rw [val_fieldX, val_fieldY, ← family, ← low, wordXYN_digits]

/-! ### Masks, digit by digit -/

/-- A bitwise AND of two numbers, the lowest digit split off. -/
theorem and_digit (a b : Nat) {x y : Nat} (hx : x < 16) (hy : y < 16) :
    (a * 16 + x) &&& (b * 16 + y) = (a &&& b) * 16 + (x &&& y) := by
  have hxy : x &&& y < 16 := Nat.lt_of_le_of_lt Nat.and_le_left hx
  apply Nat.eq_of_testBit_eq
  intro i
  rw [Nat.mul_comm a, Nat.mul_comm b, Nat.mul_comm (a &&& b), Nat.testBit_and, Nat.testBit_two_pow_mul_add (i := 4) a hx,
    Nat.testBit_two_pow_mul_add (i := 4) b hy, Nat.testBit_two_pow_mul_add (i := 4) _ hxy]
  split <;> simp

theorem slice_x_lt (op : Word) : slice op 11 8 < 16 := Nat.mod_lt _ (by decide)

theorem slice_y_lt (op : Word) : slice op 7 4 < 16 := Nat.mod_lt _ (by decide)

theorem slice_lowByte (op : Word) : slice op 7 0 = slice op 7 4 * 16 + slice op 3 0 := by
  simp only [slice]
  omega

theorem toNat_eq_digits (op : Word) :
    op.toNat = ((slice op 15 12 * 16 + slice op 11 8) * 16 + slice op 7 4) * 16 + slice op 3 0 := by
  have := op.isLt
  simp only [slice]
  omega

/-- A mask acts on each digit by itself. -/
theorem toNat_and_digits (op : Word) (a : Nat) {b c d : Nat} (hb : b < 16) (hc : c < 16) (hd : d < 16) :
    op.toNat &&& (((a * 16 + b) * 16 + c) * 16 + d) =
      (((slice op 15 12 &&& a) * 16 + (slice op 11 8 &&& b)) * 16 + (slice op 7 4 &&& c)) * 16 + (slice op 3 0 &&& d) := by
  rw [toNat_eq_digits op, and_digit _ _ (slice_lowNibble_lt op) hd, and_digit _ _ (slice_y_lt op) hc,
    and_digit _ _ (slice_x_lt op) hb]

theorem and_keep {d : Nat} (h : d < 16) : d &&& 0xF = d := Nat.and_two_pow_sub_one_of_lt_two_pow (n := 4) h

/-! The five masks of the map and of `canonicalWord`: the digits each one keeps. -/

theorem toNat_and_F000 (op : Word) : op.toNat &&& 0xF000 = slice op 15 12 * 0x1000 := by
  refine (toNat_and_digits op 0xF (b := 0x0) (c := 0x0) (d := 0x0) (by decide) (by decide) (by decide)).trans ?_
  simp only [and_keep (slice_family_lt op), Nat.and_zero]
  omega

theorem toNat_and_F00F (op : Word) : op.toNat &&& 0xF00F = slice op 15 12 * 0x1000 + slice op 3 0 := by
  refine (toNat_and_digits op 0xF (b := 0x0) (c := 0x0) (d := 0xF) (by decide) (by decide) (by decide)).trans ?_
  simp only [and_keep (slice_family_lt op), and_keep (slice_lowNibble_lt op), Nat.and_zero]
  omega

theorem toNat_and_F0FF (op : Word) : op.toNat &&& 0xF0FF = slice op 15 12 * 0x1000 + slice op 7 0 := by
  refine (toNat_and_digits op 0xF (b := 0x0) (c := 0xF) (d := 0xF) (by decide) (by decide) (by decide)).trans ?_
  simp only [and_keep (slice_family_lt op), and_keep (slice_y_lt op), and_keep (slice_lowNibble_lt op), Nat.and_zero,
    slice_lowByte]
  omega

theorem toNat_and_FFF0 (op : Word) :
    op.toNat &&& 0xFFF0 = slice op 15 12 * 0x1000 + slice op 11 8 * 0x100 + slice op 7 4 * 0x10 := by
  refine (toNat_and_digits op 0xF (b := 0xF) (c := 0xF) (d := 0x0) (by decide) (by decide) (by decide)).trans ?_
  simp only [and_keep (slice_family_lt op), and_keep (slice_x_lt op), and_keep (slice_y_lt op), Nat.and_zero]
  omega

theorem toNat_and_FF0F (op : Word) :
    op.toNat &&& 0xFF0F = slice op 15 12 * 0x1000 + slice op 11 8 * 0x100 + slice op 3 0 := by
  refine (toNat_and_digits op 0xF (b := 0xF) (c := 0x0) (d := 0xF) (by decide) (by decide) (by decide)).trans ?_
  simp only [and_keep (slice_family_lt op), and_keep (slice_x_lt op), and_keep (slice_lowNibble_lt op), Nat.and_zero]
  omega

/-- A row of the opcode map matches when the masked numbers agree. -/
theorem and_eq_iff_toNat (op mask pattern : Word) : op &&& mask = pattern ↔ op.toNat &&& mask.toNat = pattern.toNat := by
  rw [← BitVec.toNat_inj, BitVec.toNat_and]

/-! ### Encoding what a word decodes to -/

theorem canonicalWord_of_family {op : Word} {f : Nat} (family : slice op 15 12 = f) (h5 : f ≠ 0x5) (h8 : f ≠ 0x8) (h9 : f ≠ 0x9) :
    canonicalWord op = op := by
  simp [canonicalWord, family, h5, h8, h9]

/-- Families 5 and 9 ignore the low digit (R79). -/
theorem wordXYN_zero_eq_canonicalWord {op : Word} {f : Nat} (family : slice op 15 12 = f) (h : f = 0x5 ∨ f = 0x9) :
    wordXYN f (fieldX op) (fieldY op) 0x0 = canonicalWord op := by
  have canonical : canonicalWord op = op &&& 0xFFF0#16 := by simp [canonicalWord, family, h]
  rw [canonical, eq_comm, and_eq_iff_toNat]
  refine (toNat_and_FFF0 op).trans ?_
  have := slice_x_lt op
  have := slice_y_lt op
  simp only [wordXYN, val_fieldX, val_fieldY, BitVec.toNat_ofNat, family]
  omega

/-- The shifts ignore `y` (R79, D9). -/
theorem wordXYN_shift_eq_canonicalWord {op : Word} {n : Nat} (family : slice op 15 12 = 0x8) (low : slice op 3 0 = n)
    (h : n = 0x6 ∨ n = 0xE) : wordXYN 0x8 (fieldX op) 0x0 n = canonicalWord op := by
  have canonical : canonicalWord op = op &&& 0xFF0F#16 := by simp [canonicalWord, family, low, h]
  rw [canonical, eq_comm, and_eq_iff_toNat]
  refine (toNat_and_FF0F op).trans ?_
  have := slice_x_lt op
  simp only [wordXYN, val_fieldX, BitVec.toNat_ofNat, family, low]
  omega

theorem canonicalWord_of_family_8 {op : Word} (family : slice op 15 12 = 0x8) (h6 : slice op 3 0 ≠ 0x6) (hE : slice op 3 0 ≠ 0xE) :
    canonicalWord op = op := by
  simp [canonicalWord, family, h6, hE]

theorem encode_decodeFamily0 {op : Word} (family : slice op 15 12 = 0x0) : encode (decodeFamily0 op) = op := by
  unfold decodeFamily0
  split_ifs with cls ret
  · exact cls.symm
  · exact ret.symm
  · exact wordNNN_fields family

theorem encode_decodeFamily8 {op : Word} (family : slice op 15 12 = 0x8) : encode (decodeFamily8 op) = canonicalWord op := by
  unfold decodeFamily8
  split
  case h_7 low => exact wordXYN_shift_eq_canonicalWord family low (.inl rfl)
  case h_9 low => exact wordXYN_shift_eq_canonicalWord family low (.inr rfl)
  case h_10 => exact (canonicalWord_of_family_8 family ‹_› ‹_›).symm
  all_goals
    rename_i low
    rw [canonicalWord_of_family_8 family (by rw [low]; decide) (by rw [low]; decide)]
    exact wordXYN_fields family low

theorem encode_decodeFamilyE {op : Word} (family : slice op 15 12 = 0xE) : encode (decodeFamilyE op) = op := by
  unfold decodeFamilyE
  dsimp only
  split_ifs with low low
  · exact wordXNN_fields family low
  · exact wordXNN_fields family low
  · rfl

theorem encode_decodeFamilyF {op : Word} (family : slice op 15 12 = 0xF) : encode (decodeFamilyF op) = op := by
  unfold decodeFamilyF
  dsimp only
  iterate 9
    split
    · exact wordXNN_fields family ‹_›
  rfl

/-- The word's digits select the arm of the decode tree; what the arm's instruction encodes to is the word with its ignored bits 0. -/
theorem encode_decodeWord (op : Word) : encode (decodeWord op) = canonicalWord op := by
  unfold decodeWord
  split
  case h_6 family => exact wordXYN_zero_eq_canonicalWord family (.inl rfl)
  case h_10 family => exact wordXYN_zero_eq_canonicalWord family (.inr rfl)
  case h_9 family => exact encode_decodeFamily8 family
  case h_16 =>
    have family : slice op 15 12 = 0xF := by have := slice_family_lt op; simp only [imp_false] at *; omega
    rw [canonicalWord_of_family family (by decide) (by decide) (by decide), encode_decodeFamilyF family]
  all_goals
    rename_i family
    rw [canonicalWord_of_family family (by decide) (by decide) (by decide)]
  case h_1 => exact encode_decodeFamily0 family
  case h_15 => exact encode_decodeFamilyE family
  case h_14 => exact wordXYN_fields family (toNat_fieldN op).symm
  case h_2 | h_3 | h_11 | h_12 => exact wordNNN_fields family
  all_goals exact wordXNN_fields family (toNat_fieldNN op).symm

/-! ### What a word decodes to is well-formed -/

theorem fieldNNN_ne_of_family_0 {op w : Word} (family : slice op 15 12 = 0x0) (hw : slice w 15 12 = 0x0) (h : op ≠ w) :
    fieldNNN op ≠ fieldNNN w := fun same => h <| by rw [← wordNNN_fields family, same, wordNNN_fields hw]

theorem wf_decodeFamily0 {op : Word} (family : slice op 15 12 = 0x0) : (decodeFamily0 op).wf = true := by
  unfold decodeFamily0
  split_ifs with cls ret
  · rfl
  · rfl
  · have notCls := fieldNNN_ne_of_family_0 family (w := 0x00E0#16) rfl cls
    have notRet := fieldNNN_ne_of_family_0 family (w := 0x00EE#16) rfl ret
    exact Bool.and_eq_true_iff.2 ⟨bne_iff_ne.2 notCls, bne_iff_ne.2 notRet⟩

theorem wf_decodeFamily8 {op : Word} (family : slice op 15 12 = 0x8) : (decodeFamily8 op).wf = true := by
  unfold decodeFamily8
  split
  case h_10 =>
    refine (unassigned_iff op).2 (.inl ⟨family, ?_⟩)
    have := slice_lowNibble_lt op
    simp only [List.mem_cons, List.not_mem_nil, or_false, imp_false] at *
    omega
  all_goals rfl

theorem wf_decodeFamilyE {op : Word} (family : slice op 15 12 = 0xE) : (decodeFamilyE op).wf = true := by
  unfold decodeFamilyE
  dsimp only
  split_ifs with skp sknp
  · rfl
  · rfl
  · exact (unassigned_iff op).2 (.inr (.inl ⟨family, by simp [skp, sknp]⟩))

theorem wf_decodeFamilyF {op : Word} (family : slice op 15 12 = 0xF) : (decodeFamilyF op).wf = true := by
  unfold decodeFamilyF
  dsimp only
  iterate 9
    split
    · rfl
  exact (unassigned_iff op).2 (.inr (.inr ⟨family, by simp [WellFormed.familyFCodes, *]⟩))

theorem wf_decodeWord (op : Word) : (decodeWord op).wf = true := by
  unfold decodeWord
  split
  case h_1 family => exact wf_decodeFamily0 family
  case h_9 family => exact wf_decodeFamily8 family
  case h_15 family => exact wf_decodeFamilyE family
  case h_16 => exact wf_decodeFamilyF (by have := slice_family_lt op; simp only [imp_false] at *; omega)
  all_goals rfl

/-- Settles O6: well-formedness and the re-encoding, arm by arm of the decode tree. -/
theorem everyWordDecodesAndReencodes : Obligations.EveryWordDecodesAndReencodes :=
  fun op => ⟨wf_decodeWord op, encode_decodeWord op⟩

/-! ### The opcode map -/

/-! The masks of the opcode map, row by row: which digits a row compares with those of its pattern (R81). -/

theorem and_FFFF_eq_iff (op p : Word) : op &&& 0xFFFF = p ↔ op = p := by
  rw [show op &&& 0xFFFF = op from BitVec.and_allOnes]

theorem and_0000_eq (op : Word) : op &&& 0x0000 = 0x0000 := BitVec.and_zero

theorem and_F000_eq_iff (op p : Word) : op &&& 0xF000 = p ↔ slice op 15 12 = p.toNat / 0x1000 ∧ 0 = p.toNat % 0x1000 := by
  have masked : op.toNat &&& (0xF000 : Word).toNat = slice op 15 12 * 0x1000 := toNat_and_F000 op
  rw [and_eq_iff_toNat, masked]
  omega

theorem and_F00F_eq_iff (op p : Word) :
    op &&& 0xF00F = p ↔ slice op 15 12 = p.toNat / 0x1000 ∧ slice op 3 0 = p.toNat % 0x1000 := by
  have masked : op.toNat &&& (0xF00F : Word).toNat = slice op 15 12 * 0x1000 + slice op 3 0 := toNat_and_F00F op
  have := slice_lowNibble_lt op
  rw [and_eq_iff_toNat, masked]
  omega

theorem and_F0FF_eq_iff (op p : Word) :
    op &&& 0xF0FF = p ↔ slice op 15 12 = p.toNat / 0x1000 ∧ slice op 7 0 = p.toNat % 0x1000 := by
  have masked : op.toNat &&& (0xF0FF : Word).toNat = slice op 15 12 * 0x1000 + slice op 7 0 := toNat_and_F0FF op
  have : slice op 7 0 < 256 := Nat.mod_lt _ (by decide)
  rw [and_eq_iff_toNat, masked]
  omega

theorem decodeFamily0_of_ne {op : Word} (cls : op ≠ 0x00E0#16) (ret : op ≠ 0x00EE#16) :
    decodeFamily0 op = .sys (fieldNNN op) := by
  rw [decodeFamily0, if_neg cls, if_neg ret]

/-- The first match is found family by family: the rows of other families do not match, and within families 8, E and F the remaining
rows ask for the low digits the decode tree asks for. -/
theorem tableRow_eq_row_decodeWord (op : Word) : tableRow op = (decodeWord op).row := by
  by_cases cls : op = 0x00E0
  · subst cls; decide
  by_cases ret : op = 0x00EE
  · subst ret; decide
  have family_lt := slice_family_lt op
  generalize family : slice op 15 12 = f at family_lt
  interval_cases f
  all_goals
    simp only [tableRow, opcodeRows, List.cons_append, List.nil_append, firstMatch, and_FFFF_eq_iff, and_F000_eq_iff,
      and_F00F_eq_iff, and_F0FF_eq_iff, and_0000_eq, cls, ret, family, decodeWord, BitVec.reduceToNat, Nat.reduceAdd, Nat.reduceDiv,
      Nat.reduceMod, Nat.reduceEqDiff, reduceCtorEq, false_and, true_and, if_true, if_false]
  · rw [decodeFamily0_of_ne cls ret]
    rfl
  -- Families 1 to 7 and 9 to D are one row each.
  iterate 7 rfl
  · have low_lt := slice_lowNibble_lt op
    generalize low : slice op 3 0 = n at low_lt
    interval_cases n <;> simp [decodeFamily8, low, Instr.row]
  iterate 5 rfl
  · simp only [decodeFamilyE, apply_ite Instr.row]
    rfl
  · simp only [decodeFamilyF, apply_ite Instr.row]
    rfl

/-- Settles O7: the first matching row, found family by family. -/
theorem decodeTreeAgreesWithOpcodeMap : Obligations.DecodeTreeAgreesWithOpcodeMap := tableRow_eq_row_decodeWord

/-- Settles O8: twelve closed words, evaluated by the decode tree. -/
theorem vectorWordsDecode : Obligations.VectorWordsDecode := by
  unfold Obligations.VectorWordsDecode
  decide

end Sys2Proof.Proofs
end

