-- ==== Sys2Proof/Proofs/Effect.lean ====
section
/-! What an executed instruction does, as data: `effectOf i s` names the one update that `i` makes in `s`, and `exec_eq` ties it to the
model. The statements about every instruction look at the seventeen updates instead of the thirty-six instructions. -/

namespace Sys2Proof.Proofs

open Sys2Proof.Machine Sys2Proof.Claims

/-- The updates instructions make. -/
inductive Effect where
  /-- Latch a fault (R205). -/
  | latch (kind : FaultKind) (a : Nat)
  /-- Nothing: the key wait with no key (R171). -/
  | stay
  /-- Go on to the next word or the one after it (R126). -/
  | skip (c : Bool)
  /-- Go to an address (R102, R104). -/
  | jump (target : Word)
  /-- Save an address and go to another (R103). -/
  | call (cells : Vector Word 16) (sp : Fin 17) (target : Word)
  /-- Drop a saved address and go on after it (R101). -/
  | ret (sp : Fin 17) (target : Word)
  /-- Write one register. -/
  | write (x : Reg) (v : Byte)
  /-- Consume a draw and write one register (R133). -/
  | draw (x : Reg) (v : Byte)
  /-- Write a result and then its flag (R149). -/
  | writeWithFlag (x : Reg) (rf : Byte × Bool)
  /-- Replace the framebuffer (R160). -/
  | frame (fb : Frame)
  /-- Replace the framebuffer and write the collision to VF (R161). -/
  | sprite (drawn : Frame × Bool)
  /-- Write the index register. -/
  | index (v : Word)
  /-- Write the delay timer (R172). -/
  | delay (v : Byte)
  /-- Write the sound timer (R173). -/
  | sound (v : Byte)
  /-- Store bytes from an address up (R183, R184). -/
  | store (a : Nat) (bs : List Byte)
  /-- Load bytes into V0 and up (R185). -/
  | load (bs : List Byte)
  /-- Emit a warning (R212). -/
  | warn (op : Word)

/-- The state after an update. -/
def Effect.run : Effect → State → State
  | .latch kind a, s => s.raise kind a
  | .stay, s => s
  | .skip c, s => s.skipIf c
  | .jump target, s => s.setPc target
  | .call cells sp target, s => ({ s with STACK := cells, SP := sp } : State).setPc target
  | .ret sp target, s => ({ s with SP := sp } : State).setPc target
  | .write x v, s => (s.writeReg x v).advance
  | .draw x v, s => (s.consumeDraw.writeReg x v).advance
  | .writeWithFlag x rf, s => s.writeWithFlag x rf
  | .frame fb, s => (s.setFB fb).advance
  | .sprite drawn, s => ((s.setFB drawn.1).writeReg VF (flagByte drawn.2)).advance
  | .index v, s => (s.setI v).advance
  | .delay v, s => (s.setDT v).advance
  | .sound v, s => (s.setST v).advance
  | .store a bs, s => (s.setMem (s.mem.writeRun a bs)).advance
  | .load bs, s => (s.writeRegBlock bs).advance
  | .warn op, s => (s.warn op).advance

/-- The update of the instructions that reach `n` bytes from `I` up, which fault where some address does not exist (R54). -/
def inRange (s : State) (n : Nat) (e : Effect) : Effect :=
  if 0 < n ∧ 4096 < s.I.toNat + n then .latch .addressOutOfBounds (max s.I.toNat 4096) else e

/-- The update an instruction makes in a state. -/
def effectOf (i : Instr) (s : State) : Effect :=
  match i with
  | .cls => .frame Frame.clear
  | .ret =>
    if h : s.SP.val = 0 then .latch .stackUnderflow 0
    else .ret ⟨s.SP.val - 1, by omega⟩ (s.STACK[s.SP.val - 1] + 2#16)
  | .sys nnn => .warn (encode (.sys nnn))
  | .jp nnn => .jump (address12 nnn)
  | .call nnn =>
    if h : s.SP.val < 16 then .call (s.STACK.set s.SP.val s.pc h) ⟨s.SP.val + 1, Nat.succ_lt_succ h⟩ (address12 nnn)
    else .latch .stackOverflow 0
  | .seImm x nn => .skip (s.reg x == nn)
  | .sneImm x nn => .skip (s.reg x != nn)
  | .seReg x y => .skip (s.reg x == s.reg y)
  | .sneReg x y => .skip (s.reg x != s.reg y)
  | .skp x => .skip (s.pressed (s.reg x).toNat)
  | .sknp x => .skip (!s.pressed (s.reg x).toNat)
  | .ldImm x nn => .write x nn
  | .addImm x nn => .write x (s.reg x + nn)
  | .ldReg x y => .write x (s.reg y)
  | .orReg x y => .write x (s.reg x ||| s.reg y)
  | .andReg x y => .write x (s.reg x &&& s.reg y)
  | .xorReg x y => .write x (s.reg x ^^^ s.reg y)
  | .addReg x y => .writeWithFlag x (addCarry (s.reg x) (s.reg y))
  | .subReg x y => .writeWithFlag x (subNotBorrow (s.reg x) (s.reg y))
  | .shr x => .writeWithFlag x (shiftRight (s.reg x))
  | .subnReg x y => .writeWithFlag x (subNotBorrow (s.reg y) (s.reg x))
  | .shl x => .writeWithFlag x (shiftLeft (s.reg x))
  | .ldI nnn => .index (address12 nnn)
  | .jpV0 nnn =>
    match s.bnnnMode with
    | .unrecognized => .warn (encode (.jpV0 nnn))
    | .jumpV0 => .jump (address12 nnn + s.regWord 0)
  | .rnd x nn => .draw x (s.nextDraw &&& nn)
  | .drw x y n => inRange s n.toNat
      (.sprite (drawSprite s.FB (s.reg x).toNat (s.reg y).toNat (s.mem.readRun s.I.toNat n.toNat)))
  | .ldVxDt x => .write x s.DT
  | .ldVxK x =>
    match s.lowestKey with
    | none => .stay
    | some k => .write x (BitVec.ofNat 8 k)
  | .ldDtVx x => .delay (s.reg x)
  | .ldStVx x => .sound (s.reg x)
  | .addI x => .index (s.I + s.regWord x)
  | .ldF x => .index (glyphAddress (s.reg x))
  | .ldB x => inRange s 3 (.store s.I.toNat (bcdDigits (s.reg x)))
  | .storeRegs x => inRange s (x.val + 1) (.store s.I.toNat (s.regBlock x))
  | .loadRegs x => inRange s (x.val + 1) (.load (s.mem.readRun s.I.toNat (x.val + 1)))
  | .unrecognized op => .warn op

/-- An instruction that faults out of range and makes its update in range makes the update `inRange` names. -/
theorem eq_run_inRange {r : Result} {s : State} {n : Nat} {e : Effect}
    (h : (0 < n ∧ 4096 < s.I.toNat + n ∧ r = .next (s.raise .addressOutOfBounds (max s.I.toNat 4096))) ∨
      ((n = 0 ∨ s.I.toNat + n ≤ 4096) ∧ r = .next (e.run s))) :
    r = .next ((inRange s n e).run s) := by
  rcases h with ⟨h0, h, fault⟩ | ⟨h, done⟩
  · rw [inRange, if_pos ⟨h0, h⟩]
    exact fault
  · rw [inRange, if_neg (by omega)]
    exact done

/-- Every instruction in every state answers the state its update leaves. -/
theorem exec_eq (i : Instr) (s : State) : exec i s = .next ((effectOf i s).run s) := by
  cases i with
  | ret =>
    show execRet s = _
    rcases execRet_cases s with ⟨h, e⟩ | ⟨k, hk, h, e⟩ <;> simp [e, effectOf, h, Effect.run]
  | call nnn =>
    show execCall nnn s = _
    rcases execCall_cases nnn s with ⟨h, e⟩ | ⟨h, e⟩ <;> simp [e, effectOf, h, Effect.run]
  | jpV0 nnn =>
    show execJpV0 nnn s = _
    rcases execJpV0_cases nnn s with ⟨h, e⟩ | ⟨h, e⟩ <;> simp [e, effectOf, h, Effect.run]
  | ldVxK x =>
    show execLdVxK x s = _
    unfold execLdVxK
    cases h : s.lowestKey <;> simp [effectOf, h, Effect.run]
  | drw x y n => exact eq_run_inRange (execDrw_cases x y n s)
  | ldB x =>
    refine eq_run_inRange ((execLdB_cases x s).imp ?_ ?_)
    · exact fun ⟨h, fault⟩ => ⟨by omega, by omega, fault⟩
    · exact fun ⟨h, done⟩ => ⟨by omega, done⟩
  | storeRegs x =>
    refine eq_run_inRange ((execStoreRegs_cases x s).imp ?_ ?_)
    · exact fun ⟨h, fault⟩ => ⟨by omega, by omega, fault⟩
    · exact fun ⟨h, done⟩ => ⟨by omega, done⟩
  | loadRegs x =>
    refine eq_run_inRange ((execLoadRegs_cases x s).imp ?_ ?_)
    · exact fun ⟨h, fault⟩ => ⟨by omega, by omega, fault⟩
    · exact fun ⟨h, done⟩ => ⟨by omega, done⟩
  | _ => rfl

theorem exec_eq_next_iff {i : Instr} {s t : State} : exec i s = .next t ↔ t = (effectOf i s).run s := by
  rw [exec_eq, Host.Outcome.next.injEq, eq_comm]

/-- Settles O48: the next state is the one the instruction's update leaves. -/
theorem everyInstructionAnswersANextState : Obligations.EveryInstructionAnswersANextState :=
  fun i s => ⟨_, exec_eq i s⟩

/-! ### Which instruction makes which update -/

/-- The instruction is a memory instruction whose range leaves memory (R54). -/
def ReachesOutside (i : Instr) (s : State) : Prop :=
  (∃ x y n, i = .drw x y n ∧ 0 < n.toNat ∧ 4095 < s.I.toNat + n.toNat - 1) ∨
  (∃ x, i = .ldB x ∧ 4095 < s.I.toNat + 2) ∨
  (∃ x, (i = .storeRegs x ∨ i = .loadRegs x) ∧ 4095 < s.I.toNat + x.val)

/-- The instruction and the state that an update can come from. -/
def MadeBy (i : Instr) (s : State) : Effect → Prop
  | .latch kind a =>
    (kind = .stackUnderflow ∧ i = .ret ∧ s.SP.val = 0) ∨
    (kind = .stackOverflow ∧ (∃ nnn, i = .call nnn) ∧ s.SP.val = 16) ∨
    (kind = .addressOutOfBounds ∧ a = max s.I.toNat 4096 ∧ ReachesOutside i s)
  | .stay => ∃ x, i = .ldVxK x ∧ s.KEY = 0#16
  | .skip _ => IsSkip i
  | .jump target =>
    (∃ nnn, i = .jp nnn ∧ target = address12 nnn) ∨
    (∃ nnn, i = .jpV0 nnn ∧ s.bnnnMode = .jumpV0 ∧ target = address12 nnn + s.regWord 0)
  | .call cells sp target => ∃ nnn, i = .call nnn ∧ target = address12 nnn ∧
      ∃ h : s.SP.val < 16, cells = s.STACK.set s.SP.val s.pc h ∧ sp = ⟨s.SP.val + 1, Nat.succ_lt_succ h⟩
  | .ret sp target => i = .ret ∧
      ∃ (k : Nat) (h : k < 16), s.SP.val = k + 1 ∧ sp = ⟨k, Nat.lt_succ_of_lt h⟩ ∧ target = s.STACK[k] + 2#16
  | .write x _ => MayWrite i x
  | .draw x _ => ∃ nn, i = .rnd x nn
  | .writeWithFlag x _ => WritesFlag i ∧ MayWrite i x
  | .frame _ => i = .cls
  | .sprite _ => ∃ x y n, i = .drw x y n
  | .index _ => (∃ nnn, i = .ldI nnn) ∨ ∃ x, i = .addI x ∨ i = .ldF x
  | .delay _ => ∃ x, i = .ldDtVx x
  | .sound _ => ∃ x, i = .ldStVx x
  | .store a bs => a + bs.length ≤ 4096 ∧ ∃ x, i = .ldB x ∨ i = .storeRegs x
  | .load bs => ∃ x, i = .loadRegs x ∧ bs.length = x.val + 1
  | .warn _ => (∃ nnn, i = .sys nnn ∨ i = .jpV0 nnn) ∨ ∃ op, i = .unrecognized op

/-- In range the update is the instruction's own; out of range it is the fault. -/
theorem madeBy_inRange {i : Instr} {s : State} {n : Nat} {e : Effect}
    (inside : n = 0 ∨ s.I.toNat + n ≤ 4096 → MadeBy i s e)
    (outside : 0 < n → 4096 < s.I.toNat + n → ReachesOutside i s) : MadeBy i s (inRange s n e) := by
  unfold inRange
  split_ifs with h
  · exact .inr (.inr ⟨rfl, rfl, outside h.1 h.2⟩)
  · exact inside (by omega)

theorem KEY_eq_zero_iff (s : State) : s.KEY = 0#16 ↔ ∀ k < 16, s.pressed k = false := by
  constructor
  · intro h k _
    rw [State.pressed, h, BitVec.getLsbD_zero]
  · intro h
    refine BitVec.eq_of_getLsbD_eq fun k hk => ?_
    rw [BitVec.getLsbD_zero]
    exact h k hk

theorem effectOf_ret_empty {s : State} (h : s.SP.val = 0) : effectOf .ret s = .latch .stackUnderflow 0 := by
  simp [effectOf, h]

theorem effectOf_ret_pop {s : State} {k : Nat} (hk : k < 16) (h : s.SP.val = k + 1) :
    effectOf .ret s = .ret ⟨k, Nat.lt_succ_of_lt hk⟩ (s.STACK[k] + 2#16) := by
  simp [effectOf, h]

theorem effectOf_call_room {s : State} (nnn : BitVec 12) (h : s.SP.val < 16) :
    effectOf (.call nnn) s = .call (s.STACK.set s.SP.val s.pc h) ⟨s.SP.val + 1, Nat.succ_lt_succ h⟩ (address12 nnn) := by
  simp [effectOf, h]

theorem effectOf_call_full {s : State} (nnn : BitVec 12) (h : s.SP.val = 16) :
    effectOf (.call nnn) s = .latch .stackOverflow 0 := by
  simp [effectOf, h]

/-- Every update of `effectOf` is one its instruction makes. -/
theorem madeBy_effectOf (i : Instr) (s : State) : MadeBy i s (effectOf i s) := by
  cases i with
  | ret =>
    rcases execRet_cases s with ⟨h, -⟩ | ⟨k, hk, h, -⟩
    · rw [effectOf_ret_empty h]
      exact .inl ⟨rfl, rfl, h⟩
    · rw [effectOf_ret_pop hk h]
      exact ⟨rfl, k, hk, h, rfl, rfl⟩
  | call nnn =>
    rcases execCall_cases nnn s with ⟨h, -⟩ | ⟨h, -⟩
    · rw [effectOf_call_full nnn h]
      exact .inr (.inl ⟨rfl, ⟨nnn, rfl⟩, h⟩)
    · rw [effectOf_call_room nnn h]
      exact ⟨nnn, rfl, rfl, h, rfl, rfl⟩
  | jpV0 nnn =>
    cases mode : s.bnnnMode <;> simp only [effectOf, mode]
    · exact .inl ⟨nnn, .inr rfl⟩
    · exact .inr ⟨nnn, rfl, mode, rfl⟩
  | ldVxK x =>
    cases key : s.lowestKey <;> simp only [effectOf, key]
    · exact ⟨x, rfl, (KEY_eq_zero_iff s).2 (State.lowestKey_eq_none.1 key)⟩
    · exact .inr rfl
  | drw x y n => exact madeBy_inRange (fun _ => ⟨x, y, n, rfl⟩) fun h0 h => .inl ⟨x, y, n, rfl, h0, by omega⟩
  | ldB x =>
    exact madeBy_inRange (fun h => ⟨by simp only [bcdDigits, List.length_cons, List.length_nil]; omega, x, .inl rfl⟩)
      fun _ h => .inr (.inl ⟨x, rfl, by omega⟩)
  | storeRegs x =>
    exact madeBy_inRange (fun h => ⟨by rw [State.length_regBlock]; omega, x, .inr rfl⟩)
      fun _ h => .inr (.inr ⟨x, .inl rfl, by omega⟩)
  | loadRegs x =>
    exact madeBy_inRange (fun _ => ⟨x, rfl, Memory.length_readRun _ _ _⟩) fun _ h => .inr (.inr ⟨x, .inr rfl, by omega⟩)
  | sys nnn => exact .inl ⟨nnn, .inl rfl⟩
  | unrecognized op => exact .inr ⟨op, rfl⟩
  | jp nnn => exact .inl ⟨nnn, rfl, rfl⟩
  | ldI nnn => exact .inl ⟨nnn, rfl⟩
  | addI x => exact .inr ⟨x, .inl rfl⟩
  | ldF x => exact .inr ⟨x, .inr rfl⟩
  | rnd x nn => exact ⟨nn, rfl⟩
  | ldDtVx x => exact ⟨x, rfl⟩
  | ldStVx x => exact ⟨x, rfl⟩
  | cls => rfl
  | seImm | sneImm | seReg | sneReg | skp | sknp => trivial
  | addReg | subReg | shr | subnReg | shl => exact ⟨trivial, .inr rfl⟩
  | ldImm | addImm | ldReg | orReg | andReg | xorReg | ldVxDt => exact .inr rfl

theorem madeBy_of_eq {i : Instr} {s : State} {e : Effect} (h : effectOf i s = e) : MadeBy i s e := h ▸ madeBy_effectOf i s

/-- What a next state is: the one a certain update leaves, which the instruction makes. -/
theorem exists_effect {i : Instr} {s t : State} (h : exec i s = .next t) : ∃ e, MadeBy i s e ∧ t = e.run s :=
  ⟨effectOf i s, madeBy_effectOf i s, exec_eq_next_iff.1 h⟩

end Sys2Proof.Proofs
end

