-- ==== Sys2Proof/Proofs/Invariant.lean ====
section
/-! The invariants of spec 10_state.md R37: at reset, over the update of every instruction, and over every operation of the interface. -/

namespace Sys2Proof.Proofs

open Sys2Proof.Machine Sys2Proof.Claims

/-- Settles O54: closed facts about the reset state, which is its own `resetOp`. -/
theorem resetStateMeetsTheInvariants : Obligations.ResetStateMeetsTheInvariants where
  mem_wf := Memory.reset_wf
  pc_bound := by decide
  stack_bound _ _ below := absurd below (Nat.not_lt_zero _)
  addr_zero _ := rfl
  addr_bound kind := nomatch kind
  untouched_fresh _ := rfl

/-! ### Updates -/

theorem le_pcBound (mode : Config.BnnnMode) : 0x1002 ≤ pcBound mode := by cases mode <;> decide

theorem toNat_pc_add {pc d : Word} (hpc : pc.toNat ≤ 0xFFE) (hd : d.toNat ≤ 4) : (pc + d).toNat ≤ 0x1002 := by
  rw [BitVec.toNat_add]
  omega

theorem toNat_address12_le (nnn : BitVec 12) : (address12 nnn).toNat ≤ 0x1002 := by
  have := nnn.isLt
  rw [toNat_address12]
  omega

/-- The target of BNNN's jump is not reduced (R104). -/
theorem toNat_address12_add_regWord (nnn : BitVec 12) (s : State) (r : Reg) :
    (address12 nnn + s.regWord r).toNat = nnn.toNat + (s.reg r).toNat := by
  have := nnn.isLt
  have := (s.reg r).isLt
  have zext : (s.regWord r).toNat = (s.reg r).toNat := BitVec.toNat_setWidth_of_le (by decide)
  rw [BitVec.toNat_add, toNat_address12, zext]
  omega

/-- A state in use that agrees with one in the invariants on the stack and the latch is in them, if its memory and `pc` are. -/
theorem Inv.of_stack_latch {s t : State} (inv : s.Inv) (mem : t.mem.wf) (pc : t.pc.toNat ≤ pcBound t.bnnnMode)
    (cells : t.STACK = s.STACK) (sp : t.SP = s.SP) (latch : t.FAULT = s.FAULT) (used : t.untouched = false) : t.Inv where
  mem_wf := mem
  pc_bound := pc
  stack_bound k h below := by
    simp only [cells]
    exact inv.stack_bound k h (sp ▸ below)
  addr_zero := latch ▸ inv.addr_zero
  addr_bound := latch ▸ inv.addr_bound
  untouched_fresh fresh := absurd fresh (by simp [used])

theorem Inv.touch {s : State} (inv : s.Inv) : s.touch.Inv :=
  Inv.of_stack_latch inv inv.mem_wf inv.pc_bound rfl rfl rfl rfl

/-- Latching keeps the invariants when an address fault records an address no access reaches. -/
theorem Inv.raise {s : State} {kind : FaultKind} {a : Nat} (inv : s.Inv) (used : s.untouched = false)
    (ha : kind = .addressOutOfBounds → 0xFFF ≤ a ∧ a < 65536) : (s.raise kind a).Inv where
  mem_wf := inv.mem_wf
  pc_bound := inv.pc_bound
  stack_bound := inv.stack_bound
  addr_zero other := if_neg other
  addr_bound address := by
    obtain ⟨low, high⟩ := ha address
    rw [State.raise_FAULT, if_pos (show kind = _ from address), BitVec.toNat_ofNat, Nat.mod_eq_of_lt high]
    exact low
  untouched_fresh fresh := absurd fresh (by simp [used])

/-- A pushed address is one a fetch succeeded at (R37 (c)). -/
theorem Inv.push {s : State} (inv : s.Inv) (used : s.untouched = false) (hpc : s.pc.toNat ≤ 0xFFE) (h : s.SP.val < 16)
    {target : Word} (ht : target.toNat ≤ 0x1002) :
    (({ s with STACK := s.STACK.set s.SP.val s.pc h, SP := ⟨s.SP.val + 1, Nat.succ_lt_succ h⟩ } : State).setPc target).Inv where
  mem_wf := inv.mem_wf
  pc_bound := ht.trans (le_pcBound _)
  stack_bound k hk below := by
    simp only [State.setPc_STACK, State.setPc_SP, Vector.getElem_set] at below ⊢
    split_ifs with top
    · exact hpc
    · exact inv.stack_bound k hk (by omega)
  addr_zero := inv.addr_zero
  addr_bound := inv.addr_bound
  untouched_fresh fresh := absurd fresh (by simp [used])

theorem Inv.pop {s : State} (inv : s.Inv) (used : s.untouched = false) {k : Nat} (hk : k < 16) (h : s.SP.val = k + 1) :
    (({ s with SP := ⟨k, Nat.lt_succ_of_lt hk⟩ } : State).setPc (s.STACK[k] + 2#16)).Inv where
  mem_wf := inv.mem_wf
  pc_bound := (toNat_pc_add (inv.stack_bound k hk (by omega)) (by decide)).trans (le_pcBound _)
  stack_bound j hj below := inv.stack_bound j hj (by simp only [State.setPc_SP] at below; omega)
  addr_zero := inv.addr_zero
  addr_bound := inv.addr_bound
  untouched_fresh fresh := absurd fresh (by simp [used])

/-- The update of an instruction that was fetched keeps the invariants: `pc` goes on by at most 4 from an address a fetch succeeded at or
to an address the instruction names, and a store is inside memory. -/
theorem Inv.run {i : Instr} {s : State} {e : Effect} (inv : s.Inv) (used : s.untouched = false) (hpc : s.pc.toNat ≤ 0xFFE)
    (made : MadeBy i s e) : (e.run s).Inv := by
  have next : (s.pc + 2#16).toNat ≤ pcBound s.bnnnMode := (toNat_pc_add hpc (by decide)).trans (le_pcBound _)
  cases e with
  | latch kind a =>
    refine Inv.raise inv used fun address => ?_
    rcases made with ⟨underflow, -⟩ | ⟨overflow, -⟩ | ⟨-, rfl, -⟩
    · exact absurd (address.symm.trans underflow) (by decide)
    · exact absurd (address.symm.trans overflow) (by decide)
    · have := s.I.isLt
      omega
  | stay => exact inv
  | skip c =>
    refine Inv.of_stack_latch inv inv.mem_wf ?_ rfl rfl rfl used
    exact (toNat_pc_add hpc (by cases c <;> decide)).trans (le_pcBound _)
  | jump target =>
    refine Inv.of_stack_latch inv inv.mem_wf ?_ rfl rfl rfl used
    rcases made with ⟨nnn, -, rfl⟩ | ⟨nnn, -, mode, rfl⟩
    · exact (toNat_address12_le nnn).trans (le_pcBound _)
    · have := nnn.isLt
      have := (s.reg 0).isLt
      simp only [Effect.run, State.setPc_pc, State.setPc_bnnnMode, mode, pcBound, toNat_address12_add_regWord]
      omega
  | call cells sp target =>
    obtain ⟨nnn, -, rfl, h, rfl, rfl⟩ := made
    exact Inv.push inv used hpc h (toNat_address12_le nnn)
  | ret sp target =>
    obtain ⟨-, k, hk, h, rfl, rfl⟩ := made
    exact Inv.pop inv used hk h
  | store a bs =>
    exact Inv.of_stack_latch inv (Memory.writeRun_wf inv.mem_wf made.1) next rfl rfl rfl used
  | _ => exact Inv.of_stack_latch inv inv.mem_wf next rfl rfl rfl used

/-! ### Steps -/

theorem Inv.agenda {s : State} (inv : s.Inv) (rest : List Op) : ({ s with agenda := rest } : State).Inv where
  mem_wf := inv.mem_wf
  pc_bound := inv.pc_bound
  stack_bound := inv.stack_bound
  addr_zero := inv.addr_zero
  addr_bound := inv.addr_bound
  untouched_fresh fresh := congrArg (fun s : State => { s with agenda := rest }) (inv.untouched_fresh fresh)

theorem Inv.resetOp (s : State) : s.resetOp.Inv where
  mem_wf := Memory.reset_wf
  pc_bound := (by decide : State.reset.pc.toNat ≤ 0x1002).trans (le_pcBound _)
  stack_bound _ _ below := absurd below (Nat.not_lt_zero _)
  addr_zero _ := rfl
  addr_bound kind := nomatch kind
  untouched_fresh _ := rfl

/-- A tick that keeps the mark of a fresh state changed nothing. -/
theorem Inv.tickTimers {s : State} (inv : s.Inv) : s.tickTimers.Inv where
  mem_wf := inv.mem_wf
  pc_bound := inv.pc_bound
  stack_bound := inv.stack_bound
  addr_zero := inv.addr_zero
  addr_bound := inv.addr_bound
  untouched_fresh fresh := by
    obtain ⟨untouched, same⟩ := State.tickTimers_untouched_eq_true.1 fresh
    rw [same]
    exact inv.untouched_fresh untouched

/-- A key write that keeps the mark of a fresh state changed nothing. -/
theorem Inv.setKey {s : State} (inv : s.Inv) (k : Fin 16) (b : Bool) : (s.setKey k b).Inv where
  mem_wf := inv.mem_wf
  pc_bound := inv.pc_bound
  stack_bound := inv.stack_bound
  addr_zero := inv.addr_zero
  addr_bound := inv.addr_bound
  untouched_fresh fresh := by
    obtain ⟨untouched, same⟩ := State.setKey_untouched_eq_true.1 fresh
    rw [same]
    exact inv.untouched_fresh untouched

theorem Inv.loadOp {s t : State} {rom : List Byte} (inv : s.Inv) (h : loadOp rom s = .next t) : t.Inv := by
  obtain ⟨-, ⟨-, rfl⟩ | ⟨fits, rfl⟩⟩ := loadOp_eq_next.1 h
  · exact Inv.raise (Inv.touch inv) rfl nofun
  · exact Inv.of_stack_latch inv (Memory.writeRun_wf inv.mem_wf (by omega)) inv.pc_bound rfl rfl rfl rfl

theorem Inv.coreStep {s t : State} (inv : s.Inv) (h : coreStep s = .next t) : t.Inv := by
  rcases coreStep_cases s with ⟨-, e⟩ | ⟨-, hpc, e⟩ | ⟨-, hpc, e⟩
  · obtain rfl : s = t := Host.Outcome.next.inj (e.symm.trans h)
    exact inv
  · obtain rfl := Host.Outcome.next.inj (e.symm.trans h)
    exact Inv.raise (Inv.touch inv) rfl fun _ => ⟨hpc, s.pc.isLt⟩
  · obtain ⟨eff, made, rfl⟩ := exists_effect (e.symm.trans h)
    exact Inv.run (Inv.touch inv) rfl hpc made

theorem Inv.applyOp {op : Op} {s t : State} (inv : s.Inv) (h : applyOp op s = .next t) : t.Inv := by
  cases op with
  | reset =>
    obtain rfl := Host.Outcome.next.inj h
    exact Inv.resetOp s
  | load rom => exact Inv.loadOp inv h
  | step => exact Inv.coreStep inv h
  | tickTimers =>
    obtain rfl := Host.Outcome.next.inj h
    exact Inv.tickTimers inv
  | setKey k b =>
    obtain rfl := Host.Outcome.next.inj h
    exact Inv.setKey inv k b

/-- Settles O55: `step()` on an empty agenda, or the operation at its head on the state without it. -/
theorem everyStepKeepsTheInvariants : Obligations.EveryStepKeepsTheInvariants := by
  intro s t inv h
  rcases step_cases s with ⟨-, e⟩ | ⟨op, rest, -, e⟩
  · exact Inv.coreStep inv (e.symm.trans h)
  · exact Inv.applyOp (Inv.agenda inv rest) (e.symm.trans h)

end Sys2Proof.Proofs
end

