-- ==== Sys2Proof/Proofs/Writers.lean ====
section
/-! Statements about every instruction, read off the updates: faults, the writers of each part of the state, and the program counter. -/

namespace Sys2Proof.Proofs

open Sys2Proof.Machine Sys2Proof.Claims

/-! ### The parts no update writes -/

theorem run_KEY (e : Effect) (s : State) : (e.run s).KEY = s.KEY := by cases e <;> rfl

theorem run_bnnnMode (e : Effect) (s : State) : (e.run s).bnnnMode = s.bnnnMode := by cases e <;> rfl

theorem run_agenda (e : Effect) (s : State) : (e.run s).agenda = s.agenda := by cases e <;> rfl

theorem run_untouched (e : Effect) (s : State) : (e.run s).untouched = s.untouched := by cases e <;> rfl

/-! ### Faults -/

/-- An update that is no fault leaves the latch alone. -/
theorem run_FAULT (e : Effect) (s : State) : (∃ kind a, e = .latch kind a) ∨ (e.run s).FAULT = s.FAULT := by
  cases e with
  | latch kind a => exact .inl ⟨kind, a, rfl⟩
  | _ => exact .inr rfl

/-- Settles O46: a fault is the update that changes the latch alone. -/
theorem faultsArePrecise : Obligations.FaultsArePrecise := by
  intro i s t h
  obtain ⟨e, -, rfl⟩ := exists_effect h
  rcases run_FAULT e s with ⟨kind, a, rfl⟩ | same
  · exact .inr rfl
  · exact .inl same

theorem inRange_eq_latch {s : State} {n : Nat} (e : Effect) (h0 : 0 < n) (h : 4096 < s.I.toNat + n) :
    inRange s n e = .latch .addressOutOfBounds (max s.I.toNat 4096) := if_pos ⟨h0, h⟩

theorem inRange_eq_self {s : State} {n : Nat} (e : Effect) (h : n = 0 ∨ s.I.toNat + n ≤ 4096) : inRange s n e = e :=
  if_neg (by omega)

/-- A memory instruction whose range leaves memory faults. -/
theorem effectOf_of_reachesOutside {i : Instr} {s : State} (h : ReachesOutside i s) :
    effectOf i s = .latch .addressOutOfBounds (max s.I.toNat 4096) := by
  rcases h with ⟨x, y, n, rfl, h0, h⟩ | ⟨x, rfl, h⟩ | ⟨x, rfl | rfl, h⟩
  · exact inRange_eq_latch _ h0 (by omega)
  all_goals exact inRange_eq_latch _ (by omega) (by omega)

/-- From a clear latch, the next state's latch holds a kind exactly when the update latched it. -/
theorem FAULT_kind_iff {i : Instr} {s t : State} (clear : s.FAULT.kind = .none) (h : exec i s = .next t) {kind : FaultKind}
    (hk : kind ≠ .none) : t.FAULT.kind = kind ↔ ∃ a, effectOf i s = .latch kind a := by
  obtain rfl := exec_eq_next_iff.1 h
  constructor
  · rintro rfl
    rcases run_FAULT (effectOf i s) s with ⟨kind, a, e⟩ | same
    · rw [e]
      exact ⟨a, rfl⟩
    · rw [same] at hk
      exact absurd clear hk
  · rintro ⟨a, e⟩
    rw [e]
    rfl

/-- Settles O45: which update latches each kind, and the update each of the listed instructions makes under its condition. -/
theorem faultsHaveTheirExactConditions : Obligations.FaultsHaveTheirExactConditions := by
  intro i s t clear h
  have made {kind : FaultKind} : (∃ a, effectOf i s = .latch kind a) → ∃ a, MadeBy i s (.latch kind a) :=
    fun ⟨a, e⟩ => ⟨a, e ▸ madeBy_effectOf i s⟩
  refine ⟨(FAULT_kind_iff clear h (by decide)).trans ⟨fun latched => ?_, ?_⟩,
    (FAULT_kind_iff clear h (by decide)).trans ⟨fun latched => ?_, ?_⟩,
    (FAULT_kind_iff clear h (by decide)).trans ⟨fun latched => ?_, fun outside => ⟨_, effectOf_of_reachesOutside outside⟩⟩,
    fun rom => ?_⟩
  · simpa [MadeBy] using made latched
  · rintro ⟨rfl, empty⟩
    exact ⟨_, effectOf_ret_empty empty⟩
  · simpa [MadeBy] using made latched
  · rintro ⟨⟨nnn, rfl⟩, full⟩
    exact ⟨_, effectOf_call_full nnn full⟩
  · obtain ⟨a, ⟨other, -⟩ | ⟨other, -⟩ | ⟨-, -, outside⟩⟩ := made latched
    · cases other
    · cases other
    · exact outside
  · simpa [MadeBy] using made ((FAULT_kind_iff clear h (by decide)).1 rom)

/-! ### The writers of each part -/

section

variable {i : Instr} {s : State} {e : Effect} (made : MadeBy i s e)

include made

theorem mayWrite_of_reg_ne (r : Reg) (h : (e.run s).reg r ≠ s.reg r) : MayWrite i r := by
  cases e with
  | write x v =>
    by_cases hr : r = x
    · exact hr ▸ made
    · exact absurd (State.reg_writeReg_other s x r v hr) h
  | draw x v =>
    obtain ⟨nn, rfl⟩ := made
    by_cases hr : r = x
    · exact .inr hr
    · exact absurd (State.reg_writeReg_other _ x r v hr) h
  | writeWithFlag x rf =>
    obtain ⟨flag, dest⟩ := made
    by_cases hv : r = VF
    · exact .inl ⟨flag, hv⟩
    by_cases hr : r = x
    · exact hr ▸ dest
    · exact absurd ((State.reg_writeReg_other _ VF r _ hv).trans (State.reg_writeReg_other s x r _ hr)) h
  | sprite drawn =>
    obtain ⟨x, y, n, rfl⟩ := made
    by_cases hv : r = VF
    · exact .inl ⟨trivial, hv⟩
    · exact absurd (State.reg_writeReg_other _ VF r _ hv) h
  | load bs =>
    obtain ⟨x, rfl, len⟩ := made
    refine .inr (Nat.le_of_not_lt fun above => h ?_)
    exact (State.reg_writeRegBlock s bs r).trans (List.getD_eq_default bs _ (by omega))
  | _ => exact absurd rfl h

theorem writer_of_I_ne (h : (e.run s).I ≠ s.I) : (∃ nnn, i = .ldI nnn) ∨ ∃ x, i = .addI x ∨ i = .ldF x := by
  cases e with
  | index v => exact made
  | _ => exact absurd rfl h

theorem writer_of_STACK_ne (h : (e.run s).STACK ≠ s.STACK) : ∃ nnn, i = .call nnn := by
  cases e with
  | call cells sp target =>
    obtain ⟨nnn, rfl, -⟩ := made
    exact ⟨nnn, rfl⟩
  | _ => exact absurd rfl h

theorem writer_of_SP_ne (h : (e.run s).SP ≠ s.SP) : (∃ nnn, i = .call nnn) ∨ i = .ret := by
  cases e with
  | call cells sp target =>
    obtain ⟨nnn, rfl, -⟩ := made
    exact .inl ⟨nnn, rfl⟩
  | ret sp target => exact .inr made.1
  | _ => exact absurd rfl h

theorem writer_of_DT_ne (h : (e.run s).DT ≠ s.DT) : ∃ x, i = .ldDtVx x := by
  cases e with
  | delay v => exact made
  | _ => exact absurd rfl h

theorem writer_of_ST_ne (h : (e.run s).ST ≠ s.ST) : ∃ x, i = .ldStVx x := by
  cases e with
  | sound v => exact made
  | _ => exact absurd rfl h

theorem writer_of_FB_ne (h : (e.run s).FB ≠ s.FB) : i = .cls ∨ ∃ x y n, i = .drw x y n := by
  cases e with
  | frame fb => exact .inl made
  | sprite drawn => exact .inr made
  | _ => exact absurd rfl h

theorem writer_of_mem_ne (h : (e.run s).mem ≠ s.mem) : ∃ x, i = .ldB x ∨ i = .storeRegs x := by
  cases e with
  | store a bs => exact made.2
  | _ => exact absurd rfl h

theorem writer_of_draws_ne (h : (e.run s).drawCount ≠ s.drawCount ∨ (e.run s).drawQueue ≠ s.drawQueue) :
    ∃ x nn, i = .rnd x nn := by
  cases e with
  | draw x v => exact ⟨x, made⟩
  | _ => exact h.elim (absurd rfl) (absurd rfl)

theorem writer_of_warnings_ne (h : (e.run s).warnings ≠ s.warnings) :
    (∃ nnn, i = .sys nnn ∨ i = .jpV0 nnn) ∨ ∃ op, i = .unrecognized op := by
  cases e with
  | warn op => exact made
  | _ => exact absurd rfl h

theorem writer_of_FAULT_ne (h : (e.run s).FAULT ≠ s.FAULT) :
    i = .ret ∨ (∃ nnn, i = .call nnn) ∨ (∃ x y n, i = .drw x y n) ∨ ∃ x, i = .ldB x ∨ i = .storeRegs x ∨ i = .loadRegs x := by
  rcases run_FAULT e s with ⟨kind, a, rfl⟩ | same
  · rcases made with ⟨-, ret, -⟩ | ⟨-, call, -⟩ | ⟨-, -, ⟨x, y, n, drw, -⟩ | ⟨x, ldB, -⟩ | ⟨x, block, -⟩⟩
    · exact .inl ret
    · exact .inr (.inl call)
    · exact .inr (.inr (.inl ⟨x, y, n, drw⟩))
    · exact .inr (.inr (.inr ⟨x, .inl ldB⟩))
    · exact .inr (.inr (.inr ⟨x, .inr block⟩))
  · exact absurd same h

/-! ### The program counter -/

/-- The kind an update latches is that of a fault. -/
theorem FAULT_kind_ne_none {kind : FaultKind} {a : Nat} (latch : e = .latch kind a) : (e.run s).FAULT.kind ≠ .none := by
  subst latch
  rcases made with ⟨rfl, -⟩ | ⟨rfl, -⟩ | ⟨rfl, -⟩ <;> exact nofun

/-- Where an update that is no fault leaves `pc`. -/
theorem run_pc :
    (e.run s).FAULT.kind ≠ .none ∨ ((e.run s).pc = s.pc + 2#16) ∨ (IsSkip i ∧ (e.run s).pc = s.pc + 4#16) ∨
    (∃ x, i = .ldVxK x ∧ s.KEY = 0#16 ∧ e.run s = s) ∨
    (∃ nnn, (i = .jp nnn ∨ i = .call nnn) ∧ (e.run s).pc.toNat = nnn.toNat) ∨
    (∃ nnn, i = .jpV0 nnn ∧ s.bnnnMode = .jumpV0 ∧ (e.run s).pc.toNat = nnn.toNat + (s.reg 0).toNat) ∨
    (i = .ret ∧ ∃ (k : Nat) (h : k < 16), s.SP.val = k + 1 ∧ (e.run s).pc = s.STACK[k] + 2#16) := by
  cases e with
  | latch kind a => exact .inl (FAULT_kind_ne_none made rfl)
  | skip c =>
    cases c with
    | false => exact .inr (.inl rfl)
    | true => exact .inr (.inr (.inl ⟨made, rfl⟩))
  | stay =>
    obtain ⟨x, rfl, none⟩ := made
    exact .inr (.inr (.inr (.inl ⟨x, rfl, none, rfl⟩)))
  | jump target =>
    rcases made with ⟨nnn, rfl, rfl⟩ | ⟨nnn, rfl, mode, rfl⟩
    · exact .inr (.inr (.inr (.inr (.inl ⟨nnn, .inl rfl, toNat_address12 nnn⟩))))
    · exact .inr (.inr (.inr (.inr (.inr (.inl ⟨nnn, rfl, mode, toNat_address12_add_regWord nnn s 0⟩)))))
  | call cells sp target =>
    obtain ⟨nnn, rfl, rfl, -⟩ := made
    exact .inr (.inr (.inr (.inr (.inl ⟨nnn, .inr rfl, toNat_address12 nnn⟩))))
  | ret sp target =>
    obtain ⟨rfl, k, hk, h, -, rfl⟩ := made
    exact .inr (.inr (.inr (.inr (.inr (.inr ⟨rfl, k, hk, h, rfl⟩)))))
  | _ => exact .inr (.inl rfl)

end

theorem add_ne_self (pc : Word) {d : Word} (h : d ≠ 0#16) : pc + d ≠ pc := by simpa using h

theorem pc_stays {i : Instr} {s : State} {e : Effect} (made : MadeBy i s e) (h : (e.run s).pc = s.pc) :
    (e.run s).FAULT.kind ≠ .none ∨ (∃ x, i = .ldVxK x ∧ s.KEY = 0#16 ∧ e.run s = s) ∨
      (∃ nnn, (i = .jp nnn ∨ i = .call nnn) ∧ s.pc.toNat = nnn.toNat) ∨
      (∃ nnn, i = .jpV0 nnn ∧ s.bnnnMode = .jumpV0 ∧ s.pc.toNat = nnn.toNat + (s.reg 0).toNat) ∨
      (i = .ret ∧ ∃ (k : Nat) (h : k < 16), s.SP.val = k + 1 ∧ s.STACK[k] + 2#16 = s.pc) := by
  have moved := run_pc made
  rw [h] at moved
  rcases moved with fault | next | ⟨-, skipped⟩ | stay | jump | jumpV0 | ⟨ret, k, hk, depth, top⟩
  · exact .inl fault
  · exact absurd next.symm (add_ne_self s.pc (by decide))
  · exact absurd skipped.symm (add_ne_self s.pc (by decide))
  · exact .inr (.inl stay)
  · exact .inr (.inr (.inl jump))
  · exact .inr (.inr (.inr (.inl jumpV0)))
  · exact .inr (.inr (.inr (.inr ⟨ret, k, hk, depth, top.symm⟩)))

/-- Settles O56: one lemma per part; the keypad, the mode, the agenda and the mark of a fresh state are written by no update. -/
theorem eachPartHasItsWriters : Obligations.EachPartHasItsWriters := by
  intro i s t h
  obtain ⟨e, made, rfl⟩ := exists_effect h
  refine ⟨run_KEY e s, run_bnnnMode e s, run_agenda e s, run_untouched e s, mayWrite_of_reg_ne made, writer_of_I_ne made, writer_of_STACK_ne made, writer_of_SP_ne made,
    writer_of_DT_ne made, writer_of_ST_ne made, writer_of_FB_ne made, writer_of_mem_ne made, writer_of_draws_ne made,
    writer_of_warnings_ne made, writer_of_FAULT_ne made, pc_stays made⟩

theorem pc_of_jp_or_call {i : Instr} {s t : State} (h : exec i s = .next t) (clear : t.FAULT.kind = .none) (nnn : BitVec 12)
    (hi : i = .jp nnn ∨ i = .call nnn) : t.pc.toNat = nnn.toNat := by
  obtain rfl := exec_eq_next_iff.1 h
  rcases hi with rfl | rfl
  · exact toNat_address12 nnn
  · rcases execCall_cases nnn s with ⟨full, -⟩ | ⟨room, -⟩
    · rw [effectOf_call_full nnn full] at clear
      exact nomatch clear
    · rw [effectOf_call_room nnn room]
      exact toNat_address12 nnn

theorem pc_of_ret {s t : State} (h : exec .ret s = .next t) (clear : t.FAULT.kind = .none) :
    ∃ (k : Nat) (h : k < 16), s.SP.val = k + 1 ∧ t.pc = s.STACK[k] + 2#16 := by
  obtain rfl := exec_eq_next_iff.1 h
  rcases execRet_cases s with ⟨empty, -⟩ | ⟨k, hk, depth, -⟩
  · rw [effectOf_ret_empty empty] at clear
    exact nomatch clear
  · rw [effectOf_ret_pop hk depth]
    exact ⟨k, hk, depth, rfl⟩

theorem movesPc_of_isSkip {i : Instr} (h : IsSkip i) : MovesPc i := by
  cases i with
  | jp | call | ret | jpV0 | ldVxK => trivial
  | _ => exact h

/-- Settles O57: the cases of `run_pc`, of which each clause rules out those of other instructions. -/
theorem pcAdvancesByTwoOrFour : Obligations.PcAdvancesByTwoOrFour := by
  intro i s t _ h clear
  refine ⟨fun straight => ?_, fun skips => ?_, pc_of_jp_or_call h clear, ?_, ?_, ?_⟩
  case refine_3 =>
    rintro rfl
    exact pc_of_ret h clear
  all_goals obtain ⟨e, made, rfl⟩ := exists_effect h
  case refine_1 =>
    rcases run_pc made with fault | next | ⟨skip, -⟩ | ⟨x, rfl, -⟩ | ⟨nnn, rfl | rfl, -⟩ | ⟨nnn, rfl, -⟩ | ⟨rfl, -⟩
    · exact absurd clear fault
    · exact next
    · exact absurd (movesPc_of_isSkip skip) straight
    all_goals exact absurd trivial straight
  case refine_2 =>
    rcases run_pc made with fault | next | ⟨-, skipped⟩ | ⟨x, rfl, -⟩ | ⟨nnn, rfl | rfl, -⟩ | ⟨nnn, rfl, -⟩ | ⟨rfl, -⟩
    · exact absurd clear fault
    · exact .inl next
    · exact .inr skipped
    all_goals exact skips.elim
  case refine_4 =>
    rintro x rfl
    rcases run_pc made with fault | next | ⟨skip, -⟩ | ⟨-, -, none, same⟩ | ⟨_, (h | h), -⟩ | ⟨_, h, -⟩ | ⟨h, -⟩
    · exact absurd clear fault
    · exact .inl next
    · exact skip.elim
    · exact .inr ⟨same, none⟩
    all_goals cases h
  case refine_5 =>
    rintro nnn rfl
    rcases run_pc made with fault | next | ⟨skip, -⟩ | ⟨_, h, -⟩ | ⟨_, (h | h), -⟩ | ⟨_, h, mode, jump⟩ | ⟨h, -⟩
    · exact absurd clear fault
    · exact .inl next
    · exact skip.elim
    case inr.inr.inr.inr.inr.inl =>
      cases h
      exact .inr ⟨mode, jump⟩
    all_goals cases h

/-! ### The flag register -/

theorem flagByte_eq (f : Bool) : flagByte f = 0x00#8 ∨ flagByte f = 0x01#8 := by
  cases f
  · exact .inl rfl
  · exact .inr rfl

/-- An instruction that writes a flag writes it last, or faults. -/
theorem effectOf_of_writesFlag {i : Instr} (s : State) (h : WritesFlag i) :
    (∃ x rf, effectOf i s = .writeWithFlag x rf) ∨ (∃ drawn, effectOf i s = .sprite drawn) ∨
      ∃ a, effectOf i s = .latch .addressOutOfBounds a := by
  cases i with
  | addReg | subReg | shr | subnReg | shl => exact .inl ⟨_, _, rfl⟩
  | drw x y n =>
    by_cases inside : n.toNat = 0 ∨ s.I.toNat + n.toNat ≤ 4096
    · exact .inr (.inl ⟨_, inRange_eq_self _ inside⟩)
    · exact .inr (.inr ⟨_, inRange_eq_latch _ (by omega) (by omega)⟩)
  | _ => exact h.elim

/-- Settles O26: the flag is the last register written, and it is a flag byte. -/
theorem flagWritersLeaveZeroOrOne : Obligations.FlagWritersLeaveZeroOrOne := by
  intro i s t flag _ h clear
  obtain rfl := exec_eq_next_iff.1 h
  have last (u : State) (f : Bool) : (u.writeReg VF (flagByte f)).advance.reg VF = 0x00#8 ∨
      (u.writeReg VF (flagByte f)).advance.reg VF = 0x01#8 := by
    rw [State.reg_advance, State.reg_writeReg_same]
    exact flagByte_eq f
  rcases effectOf_of_writesFlag s flag with ⟨x, rf, e⟩ | ⟨drawn, e⟩ | ⟨a, e⟩ <;> rw [e] at clear ⊢
  · exact last _ _
  · exact last _ _
  · exact nomatch clear

end Sys2Proof.Proofs
end

