-- ==== Sys2Proof/Proofs/Cycle.lean ====
section
/-! The cycle and the interface (spec 00_scope.md R9 to R12): what a step is, by the head of the agenda, by the latch and by the fetch. -/

namespace Sys2Proof.Proofs

open Sys2Proof.Machine Sys2Proof.Claims Sys2Proof.Laws

theorem step_of_empty {s : State} (h : s.agenda = []) : step s = coreStep s := by
  simp [step, scheduledStep, h]

theorem step_of_cons {s : State} {op : Op} {rest : List Op} (h : s.agenda = op :: rest) :
    step s = applyOp op { s with agenda := rest } := by
  simp [step, scheduledStep, h]

theorem coreStep_of_latched {s : State} (h : s.FAULT.kind ≠ .none) : coreStep s = .next s := by
  simp [coreStep, State.faulted, h]

theorem coreStep_of_no_fetch {s : State} (clear : s.FAULT.kind = .none) (h : 0xFFF ≤ s.pc.toNat) :
    coreStep s = .next (s.touch.raise .addressOutOfBounds s.pc.toNat) := by
  simp [coreStep, State.faulted, clear, State.fetch_eq_none.2 h]

theorem coreStep_of_fetch {s : State} {op : Word} (clear : s.FAULT.kind = .none) (h : s.fetch = some op) :
    coreStep s = exec (decodeWord op) s.touch := by
  simp [coreStep, State.faulted, clear, h]

/-- Everything `step()` does, with the word it fetched by name. -/
theorem coreStep_fetch_cases (s : State) :
    (s.FAULT.kind ≠ .none ∧ coreStep s = .next s) ∨
    (s.FAULT.kind = .none ∧ 0xFFF ≤ s.pc.toNat ∧ coreStep s = .next (s.touch.raise .addressOutOfBounds s.pc.toNat)) ∨
    (s.FAULT.kind = .none ∧ ∃ op, s.fetch = some op ∧
      coreStep s = .next ((effectOf (decodeWord op) s.touch).run s.touch)) := by
  by_cases clear : s.FAULT.kind = .none
  · cases h : s.fetch with
    | none => exact .inr (.inl ⟨clear, State.fetch_eq_none.1 h, coreStep_of_no_fetch clear (State.fetch_eq_none.1 h)⟩)
    | some op => exact .inr (.inr ⟨clear, op, rfl, (coreStep_of_fetch clear h).trans (exec_eq _ _)⟩)
  · exact .inl ⟨clear, coreStep_of_latched clear⟩

/-- What a state left by `step()` is. -/
theorem coreStep_next_cases {s t : State} (h : coreStep s = .next t) :
    (s.FAULT.kind ≠ .none ∧ t = s) ∨ (t = s.touch.raise .addressOutOfBounds s.pc.toNat) ∨
    (s.FAULT.kind = .none ∧ ∃ op, s.fetch = some op ∧ t = (effectOf (decodeWord op) s.touch).run s.touch) := by
  rcases coreStep_fetch_cases s with ⟨latched, e⟩ | ⟨-, -, e⟩ | ⟨clear, op, fetched, e⟩
  · exact .inl ⟨latched, Host.Outcome.next.inj (h.symm.trans e)⟩
  · exact .inr (.inl (Host.Outcome.next.inj (h.symm.trans e)))
  · exact .inr (.inr ⟨clear, op, fetched, Host.Outcome.next.inj (h.symm.trans e)⟩)

/-! ### `step()` -/

/-- Settles O1: the two bytes at `pc` are fetched, and `step` runs what they decode to. -/
theorem stepRunsTheDecodedInstruction : Obligations.StepRunsTheDecodedInstruction := by
  intro s i clear hpc bytes
  have fetched : s.fetch = some (wordOfBytes (s.mem.read s.pc.toNat) (s.mem.read (s.pc.toNat + 1))) :=
    State.fetch_eq_some.2 ⟨hpc, rfl⟩
  have decoded : decodeWord (wordOfBytes (s.mem.read s.pc.toNat) (s.mem.read (s.pc.toNat + 1))) = i :=
    congrArg Prod.fst (Except.ok.inj bytes)
  subst decoded
  refine ⟨fun agenda => ?_, fun rest agenda => ?_⟩
  · rw [step_of_empty agenda, coreStep_of_fetch clear fetched]
  · rw [step_of_cons agenda]
    exact coreStep_of_fetch (s := { s with agenda := rest }) clear fetched

/-- A fetch that fails latches `pc` as it is. -/
theorem coreStep_latches_pc {s : State} (clear : s.FAULT.kind = .none) (h : 0xFFF ≤ s.pc.toNat) :
    ∃ t, coreStep s = .next t ∧ OnlyLatched .addressOutOfBounds s.pc s.touch t :=
  have addr : BitVec.ofNat 16 s.pc.toNat = s.pc := by rw [BitVec.ofNat_toNat, BitVec.setWidth_eq]
  ⟨_, coreStep_of_no_fetch clear h, rfl, addr, unchanged_raise s.touch _ _⟩

/-- Settles O2: the fetch fails, under an empty agenda and with `step()` at its head alike. -/
theorem fetchPastTheEndFaults : Obligations.FetchPastTheEndFaults := by
  intro s clear h
  refine ⟨fun agenda => ?_, fun rest agenda => ?_⟩
  · rw [step_of_empty agenda]
    exact coreStep_latches_pc clear h
  · rw [step_of_cons agenda]
    exact coreStep_latches_pc (s := { s with agenda := rest }) clear h

/-! ### Ticks -/

theorem toNat_ticked (v : Byte) : (if v = 0x00#8 then v else v - 1#8).toNat = v.toNat - 1 := by
  split_ifs with h
  · rw [h]
    rfl
  · bv_omega

/-- One tick at the head of the agenda. -/
theorem step_tick {s : State} {rest : List Op} (agenda : s.agenda = .tickTimers :: rest) :
    ∃ t, step s = .next t ∧ t.DT.toNat = s.DT.toNat - 1 ∧ t.ST.toNat = s.ST.toNat - 1 ∧ t.agenda = rest ∧
      Unchanged [.delayTimer, .soundTimer, .agenda, .freshness] s t :=
  ⟨_, step_of_cons agenda, toNat_ticked s.DT, toNat_ticked s.ST, rfl,
    ((unchanged_agenda s rest).trans (unchanged_tickTimers _)).mono (by decide)⟩

/-- Settles O33: `step_tick` is the statement. -/
theorem tickLowersTimersToZero : Obligations.TickLowersTimersToZero := fun _ _ agenda => step_tick agenda

theorem run_succ {s t : State} (n : Nat) (h : step s = .next t) : run (n + 1) s = run n t := by simp [run, h]

/-- Settles O34, by induction on the number of ticks: the first one is a step, the others are a run from the state it leaves. -/
theorem timerIsZeroAfterItsTicks : Obligations.TimerIsZeroAfterItsTicks := by
  intro n
  induction n with
  | zero => exact fun s rest agenda => ⟨s, rfl, rfl, rfl, agenda, Unchanged.refl _ s⟩
  | succ n ih =>
    intro s rest agenda
    obtain ⟨t, first, tDT, tST, tAgenda, sFrame⟩ := step_tick agenda
    obtain ⟨u, others, uDT, uST, uAgenda, tFrame⟩ := ih t rest tAgenda
    exact ⟨u, (run_succ n first).trans others, by omega, by omega, uAgenda, (sFrame.trans tFrame).mono (by decide)⟩

/-! ### A latched machine, and a fresh one -/

/-- The flag a key write sets, and the others (R31). -/
theorem getLsbD_setKey (s : State) (k : Fin 16) (b : Bool) (j : Nat) :
    (s.setKey k b).KEY.getLsbD j = if j = k.val then b else s.KEY.getLsbD j := by
  by_cases hj : j < 16
  · cases b <;> simp [hj, eq_comm (a := j), Bool.and_comm, Bool.or_comm]
  · have e : j ≠ k.val := by omega
    rw [if_neg e, BitVec.getLsbD_of_ge _ _ (by omega), BitVec.getLsbD_of_ge _ _ (by omega)]

theorem isFresh_iff {s : State} : IsFresh s ↔ s = s.resetOp := Iff.rfl

theorem loadOp_of_used {s : State} (rom : List Byte) (h : ¬ IsFresh s) : loadOp rom s = .refused .loadOnUsedState :=
  if_neg (mt State.fresh_eq_true.1 h)

theorem isFresh_agenda {s : State} (h : IsFresh s) (rest : List Op) : IsFresh { s with agenda := rest } :=
  isFresh_iff.2 (congrArg (fun s : State => { s with agenda := rest }) (isFresh_iff.1 h))

theorem untouched_of_isFresh {s : State} (h : IsFresh s) : s.untouched = true := congrArg State.untouched h

theorem FAULT_of_isFresh {s : State} (h : IsFresh s) : s.FAULT.kind = .none := congrArg (·.FAULT.kind) h

theorem not_isFresh_of_used {s : State} (h : s.untouched = false) : ¬ IsFresh s :=
  fun fresh => Bool.noConfusion (h.symm.trans (untouched_of_isFresh fresh))

theorem not_isFresh_of_latched {s : State} (h : s.FAULT.kind ≠ .none) : ¬ IsFresh s := mt FAULT_of_isFresh h

/-- Settles O47: the latch stops `step()` and `load()`, and only `reset()` writes it. -/
theorem faultedMachineWaitsForReset : Obligations.FaultedMachineWaitsForReset := by
  intro s rest latched
  refine ⟨fun agenda => ?_, fun agenda => ?_, fun agenda => ?_, fun k b agenda => ?_, fun rom agenda => ?_, fun agenda => ?_⟩
  · rw [step_of_empty agenda, coreStep_of_latched latched]
  · rw [step_of_cons agenda]
    exact coreStep_of_latched (s := { s with agenda := rest }) latched
  · exact ⟨_, step_of_cons agenda, rfl, toNat_ticked s.DT⟩
  · exact ⟨_, step_of_cons agenda, rfl, (getLsbD_setKey _ k b k).trans (if_pos rfl)⟩
  · rw [step_of_cons agenda]
    exact loadOp_of_used rom (not_isFresh_of_latched (s := { s with agenda := rest }) latched)
  · exact ⟨_, step_of_cons agenda, rfl⟩

/-- No `step()` leaves a fresh state: a latched state is not fresh, and any other is marked before it executes. -/
theorem not_isFresh_of_coreStep {s t : State} (h : coreStep s = .next t) : ¬ IsFresh t := by
  rcases coreStep_next_cases h with ⟨latched, rfl⟩ | rfl | ⟨-, op, -, rfl⟩
  · exact not_isFresh_of_latched latched
  · exact not_isFresh_of_used rfl
  · exact not_isFresh_of_used (run_untouched _ _)

/-- No `load()` leaves a fresh state, whatever the ROM. -/
theorem not_isFresh_of_loadOp {rom : List Byte} {s t : State} (h : loadOp rom s = .next t) : ¬ IsFresh t := by
  obtain ⟨-, ⟨-, rfl⟩ | ⟨-, rfl⟩⟩ := loadOp_eq_next.1 h <;> exact not_isFresh_of_used rfl

theorem tickTimers_of_isFresh {s : State} (h : IsFresh s) : s.tickTimers = s := by
  rw [isFresh_iff.1 h]
  rfl

theorem isFresh_tickTimers_iff {s : State} : IsFresh s.tickTimers ↔ IsFresh s := by
  refine ⟨fun fresh => ?_, fun fresh => by rwa [tickTimers_of_isFresh fresh]⟩
  obtain ⟨-, same⟩ := State.tickTimers_untouched_eq_true.1 (untouched_of_isFresh fresh)
  rwa [same] at fresh

theorem pressed_of_isFresh {s : State} (h : IsFresh s) (k : Nat) : s.pressed k = false := by
  rw [isFresh_iff.1 h]
  exact BitVec.getLsbD_zero

theorem isFresh_setKey_iff {s : State} {k : Fin 16} {b : Bool} : IsFresh (s.setKey k b) ↔ IsFresh s ∧ b = false := by
  constructor
  · intro fresh
    have pressed : (s.setKey k b).pressed k = b := (getLsbD_setKey s k b k).trans (if_pos rfl)
    obtain ⟨-, same⟩ := State.setKey_untouched_eq_true.1 (untouched_of_isFresh fresh)
    exact ⟨same ▸ fresh, pressed.symm.trans (pressed_of_isFresh fresh k)⟩
  · rintro ⟨fresh, rfl⟩
    rwa [State.setKey_eq_self (pressed_of_isFresh fresh k)]

/-- Which operations leave a fresh state (R242). -/
theorem isFresh_applyOp_iff {op : Op} {s t : State} (h : applyOp op s = .next t) :
    IsFresh t ↔ op = .reset ∨ (IsFresh s ∧ (op = .tickTimers ∨ ∃ k, op = .setKey k false)) := by
  cases op with
  | reset =>
    obtain rfl := Host.Outcome.next.inj h
    exact ⟨fun _ => .inl rfl, fun _ => rfl⟩
  | load rom => simpa using not_isFresh_of_loadOp h
  | step => simpa using not_isFresh_of_coreStep h
  | tickTimers =>
    obtain rfl := Host.Outcome.next.inj h
    simpa using isFresh_tickTimers_iff
  | setKey k b =>
    obtain rfl := Host.Outcome.next.inj h
    simpa using isFresh_setKey_iff

theorem coreStep_answers (s : State) : ∃ t, coreStep s = .next t := by
  rcases coreStep_fetch_cases s with ⟨-, e⟩ | ⟨-, -, e⟩ | ⟨-, op, -, e⟩ <;> exact ⟨_, e⟩

theorem loadOp_answers {s : State} (rom : List Byte) (h : IsFresh s) : ∃ t, loadOp rom s = .next t := by
  rcases Nat.lt_or_ge 0xE00 rom.length with long | fits
  · exact ⟨_, loadOp_eq_next.2 ⟨h, .inl ⟨long, rfl⟩⟩⟩
  · exact ⟨_, loadOp_eq_next.2 ⟨h, .inr ⟨fits, rfl⟩⟩⟩

/-- A `load()` off a fresh state. -/
def LoadsUsedState (s : State) : Prop := ∃ rom rest, s.agenda = .load rom :: rest ∧ ¬ IsFresh { s with agenda := rest }

theorem step_of_loadsUsedState {s : State} (h : LoadsUsedState s) : step s = .refused .loadOnUsedState := by
  obtain ⟨rom, rest, agenda, used⟩ := h
  exact (step_of_cons agenda).trans (loadOp_of_used rom used)

theorem step_answers {s : State} (h : ¬ LoadsUsedState s) : ∃ t, step s = .next t := by
  rcases step_cases s with ⟨-, e⟩ | ⟨op, rest, agenda, e⟩ <;> rw [e]
  · exact coreStep_answers s
  · cases op with
    | load rom => exact loadOp_answers rom (by_contra fun used => h ⟨rom, rest, agenda, used⟩)
    | step => exact coreStep_answers _
    | reset | tickTimers | setKey => exact ⟨_, rfl⟩

/-- Settles O49: a step that loads off a fresh state is refused and every other answers a next state; and which operations leave a fresh
state. -/
theorem onlyLoadOffAFreshStateIsRefused : Obligations.OnlyLoadOffAFreshStateIsRefused := by
  refine ⟨fun s => ?_, fun op s t => isFresh_applyOp_iff, fun rom rom' s t h => ?_⟩
  · change ((∃ r, step s = .refused r) ↔ LoadsUsedState s) ∧ _
    by_cases h : LoadsUsedState s
    · simp [step_of_loadsUsedState h, h]
    · obtain ⟨t, e⟩ := step_answers h
      simp [e, h]
  · exact loadOp_of_used rom' (not_isFresh_of_loadOp h)

/-! ### Reset and load -/

theorem reg_reset (r : Reg) : State.reset.reg r = 0x00#8 := by simp [State.reg, State.reset]

/-- Settles O50: the fields of the reset state, and the font and zeros an empty memory reads as. -/
theorem resetLeavesTheFreshState : Obligations.ResetLeavesTheFreshState := by
  intro s rest agenda
  have cells (k : Nat) (h : k < 16) : State.reset.STACK[k] = 0x0000#16 := Vector.getElem_replicate h
  exact ⟨_, step_of_cons agenda, fun _ _ => rfl, fun a above => List.getD_eq_default font _ above, reg_reset, rfl, rfl, rfl, cells,
    rfl, rfl, cell_clear, rfl, rfl, rfl, rfl, rfl, rfl, rfl, rfl, rfl⟩

/-- Settles O51: closed facts about the reset state and the font; `resetOp` leaves a fresh state by definition. -/
theorem resetStateIsFresh : Obligations.ResetStateIsFresh :=
  ⟨rfl, by decide, by decide, fun s => ⟨s.resetOp, rfl, rfl⟩⟩

theorem mem_of_isFresh {s : State} (h : IsFresh s) : s.mem = [] := congrArg State.mem h

/-- What a loaded ROM reads as, byte by byte. -/
theorem read_writeRun_inside {m : Memory} (hm : m.wf) {a k : Nat} {bs : List Byte} (h : k < bs.length) :
    (m.writeRun a bs).read (a + k) = bs[k] := by
  rw [Memory.read_writeRun m a bs hm.1, if_pos (Nat.le_add_right a k), Nat.add_sub_cancel_left, List.getD_eq_getElem bs _ h]

theorem read_writeRun_outside {m : Memory} (hm : m.wf) {a k : Nat} {bs : List Byte} (h : k < a ∨ a + bs.length ≤ k) :
    (m.writeRun a bs).read k = m.read k := by
  rw [Memory.read_writeRun m a bs hm.1]
  split_ifs
  · exact List.getD_eq_default bs _ (by omega)
  · rfl

/-- Settles O52: a fresh state's memory is empty, hence canonical, and the run of writes reads back byte by byte. -/
theorem loadCopiesTheRom : Obligations.LoadCopiesTheRom := by
  intro s rom rest agenda fresh
  have fresh' : IsFresh { s with agenda := rest } := isFresh_agenda fresh rest
  have hm : s.mem.wf := by
    rw [mem_of_isFresh fresh]
    exact Memory.reset_wf
  refine ⟨fun fits => ?_, fun long => ?_⟩
  · refine ⟨_, (step_of_cons agenda).trans (loadOp_eq_next.2 ⟨fresh', .inr ⟨fits, rfl⟩⟩), fun i h => read_writeRun_inside hm h,
      fun a h => read_writeRun_outside hm h, rfl, not_isFresh_of_used rfl, ?_⟩
    exact (((unchanged_agenda s rest).trans (unchanged_touch _)).trans (unchanged_setMem _ _)).mono (by decide)
  · refine ⟨_, (step_of_cons agenda).trans (loadOp_eq_next.2 ⟨fresh', .inl ⟨long, rfl⟩⟩), rfl, rfl, rfl, not_isFresh_of_used rfl, ?_⟩
    exact (((unchanged_agenda s rest).trans (unchanged_touch _)).trans (unchanged_raise _ _ _)).mono (by decide)

/-- Settles O53: after the reset the state is fresh and memory empty, so above the ROM every byte is its reset contents. -/
theorem reloadLeavesNoResidue : Obligations.ReloadLeavesNoResidue := by
  intro s rom rest agenda fits
  have loaded := (loadOp_eq_next (rom := rom) (s := ({ s with agenda := rest } : State).resetOp)).2 ⟨rfl, .inr ⟨fits, rfl⟩⟩
  refine ⟨_, _, step_of_cons agenda, (step_of_cons (op := .load rom) (rest := rest) rfl).trans loaded,
    fun i h => read_writeRun_inside Memory.reset_wf h, ?_, rfl, rfl, rfl⟩
  intro a above _
  exact (read_writeRun_outside Memory.reset_wf (.inr above)).trans
    (List.getD_eq_default font _ ((by decide : font.length ≤ 0x200).trans (by omega)))

/-! ### Low memory -/

/-- A `step()` that changes memory executed an instruction that stores. -/
theorem fetched_of_read_ne {s t : State} {a : Nat} (h : coreStep s = .next t) (hne : t.mem.read a ≠ s.mem.read a) :
    s.FAULT.kind = .none ∧ ∃ x, ∃ op, s.fetch = some op ∧ (decodeWord op = .ldB x ∨ decodeWord op = .storeRegs x) := by
  rcases coreStep_next_cases h with ⟨-, rfl⟩ | rfl | ⟨clear, op, fetched, rfl⟩
  · exact absurd rfl hne
  · exact absurd rfl hne
  · obtain ⟨x, stores⟩ := writer_of_mem_ne (madeBy_effectOf (decodeWord op) s.touch) fun same =>
      hne (congrArg (Memory.read · a) same)
    exact ⟨clear, x, op, fetched, stores⟩

/-- Settles O58: `load()` writes from 0x200 up, and ticks and keys write no memory. -/
theorem lowMemoryChangesOnlyByStores : Obligations.LowMemoryChangesOnlyByStores := by
  intro s t a hm h low hne
  rcases step_cases s with ⟨agenda, e⟩ | ⟨op, rest, agenda, e⟩
  · exact .inr ⟨.inl agenda, fetched_of_read_ne (e.symm.trans h) hne⟩
  · have applied : applyOp op { s with agenda := rest } = .next t := e.symm.trans h
    cases op with
    | reset => exact .inl ⟨rest, agenda⟩
    | step => exact .inr ⟨.inr ⟨rest, agenda⟩, fetched_of_read_ne (s := { s with agenda := rest }) applied hne⟩
    | load rom =>
      obtain ⟨-, ⟨-, rfl⟩ | ⟨-, rfl⟩⟩ := loadOp_eq_next.1 applied
      · exact absurd rfl hne
      · exact absurd (read_writeRun_outside hm (.inl low)) hne
    | tickTimers | setKey =>
      obtain rfl := Host.Outcome.next.inj applied
      exact absurd rfl hne

end Sys2Proof.Proofs
end

