-- ==== Sys2Proof/Proofs/Noninterference.lean ====
section
/-! What instructions and steps do not depend on: the timers, the keypad, the trace of warnings. An instruction's update is a function
of the parts it reads, and applying an update keeps a part it does not write at whatever value it has. -/

namespace Sys2Proof.Proofs

open Sys2Proof.Machine Sys2Proof.Claims

/-! ### Instructions -/

theorem effectOf_with_ST (i : Instr) (s : State) (v : Byte) : effectOf i { s with ST := v } = effectOf i s := by
  cases i <;> rfl

theorem effectOf_with_DT {i : Instr} (s : State) (v : Byte) (h : ∀ x, i ≠ .ldVxDt x) :
    effectOf i { s with DT := v } = effectOf i s := by
  cases i with
  | ldVxDt x => exact absurd rfl (h x)
  | _ => rfl

theorem effectOf_with_KEY {i : Instr} (s : State) (keys : BitVec 16) (h : ∀ x, i ≠ .skp x ∧ i ≠ .sknp x ∧ i ≠ .ldVxK x) :
    effectOf i { s with KEY := keys } = effectOf i s := by
  cases i with
  | skp x => exact absurd rfl (h x).1
  | sknp x => exact absurd rfl (h x).2.1
  | ldVxK x => exact absurd rfl (h x).2.2
  | _ => rfl

theorem effectOf_with_warnings (i : Instr) (s : State) (before : List Word) :
    effectOf i { s with warnings := before } = effectOf i s := by
  cases i <;> rfl

theorem run_with_KEY (e : Effect) (s : State) (keys : BitVec 16) :
    e.run { s with KEY := keys } = { e.run s with KEY := keys } := by
  cases e <;> rfl

theorem run_with_ST {e : Effect} (s : State) (v : Byte) (h : ∀ w, e ≠ .sound w) :
    e.run { s with ST := v } = { e.run s with ST := v } := by
  cases e with
  | sound w => exact absurd rfl (h w)
  | _ => rfl

theorem run_with_DT {e : Effect} (s : State) (v : Byte) (h : ∀ w, e ≠ .delay w) :
    e.run { s with DT := v } = { e.run s with DT := v } := by
  cases e with
  | delay w => exact absurd rfl (h w)
  | _ => rfl

/-- Settles O36: no update reads a timer, and only the writes of FX18 and FX15 overwrite one. -/
theorem timersAreReadOnlyWhereNamed : Obligations.TimersAreReadOnlyWhereNamed := by
  intro i s t v h
  obtain rfl := exec_eq_next_iff.1 h
  refine ⟨fun other => ?_, fun other => ?_, ?_, ?_⟩
  · have notSound (w : Byte) (e : effectOf i s = .sound w) : False := by
      obtain ⟨x, hx⟩ : ∃ x, i = .ldStVx x := madeBy_of_eq e
      exact other x hx
    rw [exec_eq, effectOf_with_ST, run_with_ST s v notSound]
  · have notDelay (w : Byte) (e : effectOf i s = .delay w) : False := by
      obtain ⟨x, hx⟩ : ∃ x, i = .ldDtVx x := madeBy_of_eq e
      exact (other x).2 hx
    rw [exec_eq, effectOf_with_DT s v fun x => (other x).1, run_with_DT s v notDelay]
  · rintro x rfl
    rfl
  · rintro x rfl
    rfl

/-- The warnings an update emits. -/
def Effect.events : Effect → List Word
  | .warn op => [op]
  | _ => []

theorem length_events_le (e : Effect) : e.events.length ≤ 1 := by cases e <;> simp [Effect.events]

theorem run_warnings (e : Effect) (s : State) : (e.run s).warnings = e.events ++ s.warnings := by cases e <;> rfl

theorem run_with_warnings (e : Effect) (s : State) (before : List Word) :
    e.run { s with warnings := before } = { e.run s with warnings := e.events ++ before } := by
  cases e <;> rfl

/-! ### Steps -/

/-- From `s` the operation emits at most one warning, whatever the trace before, and nothing else in it depends on that trace. -/
def EmitsAtMostOne (f : State → Result) (s : State) : Prop :=
  ∀ (t : State) (before : List Word), f s = .next t →
    ∃ events, events.length ≤ 1 ∧ t.warnings = events ++ s.warnings ∧
      f { s with warnings := before } = .next { t with warnings := events ++ before }

/-- An operation that keeps the trace emits nothing. -/
theorem emitsAtMostOne_of_keeps {f : State → Result} {s : State} (g : State → State) (hf : ∀ ws, f { s with warnings := ws } =
    .next { g s with warnings := ws }) (hg : (g s).warnings = s.warnings) : EmitsAtMostOne f s := by
  intro t before h
  obtain rfl : g s = t := by
    have same := (hf s.warnings).symm.trans h
    rw [← hg] at same
    exact Host.Outcome.next.inj same
  exact ⟨[], Nat.zero_le 1, hg, hf before⟩

theorem emitsAtMostOne_coreStep (s : State) : EmitsAtMostOne coreStep s := by
  rcases coreStep_fetch_cases s with ⟨latched, -⟩ | ⟨clear, high, -⟩ | ⟨clear, op, fetched, e⟩
  · exact emitsAtMostOne_of_keeps id (fun ws => coreStep_of_latched (s := { s with warnings := ws }) latched) rfl
  · exact emitsAtMostOne_of_keeps (fun s => s.touch.raise .addressOutOfBounds s.pc.toNat)
      (fun ws => coreStep_of_no_fetch (s := { s with warnings := ws }) clear high) rfl
  · intro t before h
    obtain rfl := Host.Outcome.next.inj (e.symm.trans h)
    refine ⟨_, length_events_le _, run_warnings _ _, ?_⟩
    rw [coreStep_of_fetch (s := { s with warnings := before }) clear fetched, exec_eq]
    exact congrArg Host.Outcome.next <| (congrArg (Effect.run · _) (effectOf_with_warnings _ s.touch before)).trans
      (run_with_warnings _ s.touch before)

theorem emitsAtMostOne_loadOp (rom : List Byte) (s : State) : EmitsAtMostOne (loadOp rom) s := by
  intro t before h
  obtain ⟨fresh, loaded⟩ := loadOp_eq_next.1 h
  have fresh' := congrArg (fun s : State => { s with warnings := before }) fresh
  rcases loaded with ⟨long, rfl⟩ | ⟨fits, rfl⟩
  · exact ⟨[], Nat.zero_le 1, rfl, loadOp_eq_next.2 ⟨fresh', .inl ⟨long, rfl⟩⟩⟩
  · exact ⟨[], Nat.zero_le 1, rfl, loadOp_eq_next.2 ⟨fresh', .inr ⟨fits, rfl⟩⟩⟩

theorem emitsAtMostOne_applyOp (op : Op) (s : State) : EmitsAtMostOne (applyOp op) s := by
  cases op with
  | reset => exact emitsAtMostOne_of_keeps State.resetOp (fun _ => rfl) rfl
  | load rom => exact emitsAtMostOne_loadOp rom s
  | step => exact emitsAtMostOne_coreStep s
  | tickTimers => exact emitsAtMostOne_of_keeps State.tickTimers (fun _ => rfl) rfl
  | setKey k b => exact emitsAtMostOne_of_keeps (State.setKey · k b) (fun _ => rfl) rfl

/-- Settles O59: the trace has no say in which operation a step applies, and each operation emits at most one warning. -/
theorem warningsHaveNoEffect : Obligations.WarningsHaveNoEffect := by
  intro s t before h
  rcases step_cases s with ⟨agenda, e⟩ | ⟨op, rest, agenda, e⟩
  · rw [step_of_empty (s := { s with warnings := before }) agenda]
    exact emitsAtMostOne_coreStep s t before (e.symm.trans h)
  · rw [step_of_cons (s := { s with warnings := before }) agenda]
    exact emitsAtMostOne_applyOp op { s with agenda := rest } t before (e.symm.trans h)

/-! ### The keypad -/

theorem coreStep_KEY {s t : State} (h : coreStep s = .next t) : t.KEY = s.KEY := by
  rcases coreStep_next_cases h with ⟨-, rfl⟩ | rfl | ⟨-, op, -, rfl⟩
  · rfl
  · rfl
  · exact run_KEY _ _

theorem loadOp_KEY {rom : List Byte} {s t : State} (h : loadOp rom s = .next t) : t.KEY = s.KEY := by
  obtain ⟨-, ⟨-, rfl⟩ | ⟨-, rfl⟩⟩ := loadOp_eq_next.1 h <;> rfl

/-- A step that changes the keypad applies `reset()` or `setKey`. -/
theorem agenda_of_KEY_ne {s t : State} (h : step s = .next t) (hne : t.KEY ≠ s.KEY) :
    (∃ rest, s.agenda = .reset :: rest) ∨ ∃ k b rest, s.agenda = .setKey k b :: rest := by
  rcases step_cases s with ⟨-, e⟩ | ⟨op, rest, agenda, e⟩
  · exact absurd (coreStep_KEY (e.symm.trans h)) hne
  · have applied : applyOp op { s with agenda := rest } = .next t := e.symm.trans h
    cases op with
    | reset => exact .inl ⟨rest, agenda⟩
    | setKey k b => exact .inr ⟨k, b, rest, agenda⟩
    | load rom => exact absurd (loadOp_KEY applied) hne
    | step => exact absurd (coreStep_KEY applied) hne
    | tickTimers =>
      obtain rfl := Host.Outcome.next.inj applied
      exact absurd rfl hne

/-- With key 0 pressed and every register 0, each of the three instructions that read the keypad goes elsewhere than with no key. -/
theorem key_reader_sees_key_zero {i : Instr} {x : Reg} (h : i = .skp x ∨ i = .sknp x ∨ i = .ldVxK x) :
    ((effectOf i State.reset).run State.reset).pc ≠
      ((effectOf i { State.reset with KEY := 1#16 }).run { State.reset with KEY := 1#16 }).pc := by
  have reg : ({ State.reset with KEY := 1#16 } : State).reg x = 0x00#8 := reg_reset x
  rcases h with rfl | rfl | rfl
  · simp only [effectOf, reg, reg_reset]
    decide
  · simp only [effectOf, reg, reg_reset]
    decide
  · have none : State.reset.lowestKey = none := by decide
    have zero : ({ State.reset with KEY := 1#16 } : State).lowestKey = some 0 := by decide
    simp only [effectOf, none, zero]
    exact (add_ne_self State.reset.pc (by decide)).symm

/-- Settles O35: `setKey` bit by bit; instructions by the update, which no instruction reads the keypad for but the three named. -/
theorem keypadIsWrittenFromOutsideOnly : Obligations.KeypadIsWrittenFromOutsideOnly := by
  refine ⟨?_, ?_, ?_, ?_, ?_, fun s t => agenda_of_KEY_ne, rfl⟩
  · intro s k b rest agenda
    refine ⟨_, step_of_cons agenda, ?_, fun j hj => ?_, rfl, ?_⟩
    · exact (getLsbD_setKey _ k b k).trans (if_pos rfl)
    · exact (getLsbD_setKey _ k b j).trans (if_neg hj)
    · exact ((unchanged_agenda s rest).trans (unchanged_setKey _ k b)).mono (by decide)
  · intro i s t h
    obtain rfl := exec_eq_next_iff.1 h
    exact run_KEY _ s
  · intro i s t keys other h
    obtain rfl := exec_eq_next_iff.1 h
    rw [exec_eq, effectOf_with_KEY s keys other, run_with_KEY]
  · intro i x h
    exact ⟨_, _, _, _, exec_eq _ _, exec_eq _ _, key_reader_sees_key_zero h⟩
  · intro s rest agenda
    exact ⟨_, step_of_cons agenda, rfl⟩

end Sys2Proof.Proofs
end

