-- ==== Sys2Proof/Proofs/Sprite.lean ====
section
/-! DXYN (spec 44_display.md R161, R162). Drawing a sprite flips a list of cells, one after another; the cells are distinct, so each is
flipped once, and a collision is a cell of the list that held 1. -/

namespace Sys2Proof.Proofs

open Sys2Proof.Machine Sys2Proof.Claims Sys2Proof.Laws

/-! ### Cells -/

theorem fbaddr_lt (px py : Nat) : fbaddr px py < 2048 := by
  simp only [fbaddr, Config.fbCols, Config.fbRows]
  omega

/-- Settles O28: the two remainders are the two operands' low bits, side by side. -/
theorem framebufferAddressForms : Obligations.FramebufferAddressForms := by
  intro px py
  refine ⟨rfl, ?_, fbaddr_lt px py⟩
  have low : (BitVec.ofNat 6 px).toNat < 2 ^ 6 := (BitVec.ofNat 6 px).isLt
  rw [BitVec.toNat_append, ← Nat.shiftLeft_add_eq_or_of_lt low, Nat.shiftLeft_eq, BitVec.toNat_ofNat, BitVec.toNat_ofNat]
  simp only [fbaddr, Config.fbCols, Config.fbRows]
  omega

/-- Within 64 columns and 32 rows of a place, different offsets give different cells: wrap-around never meets itself. -/
theorem fbaddr_inj {vx py c c' r r' : Nat} (hc : c < 64) (hc' : c' < 64) (hr : r < 32) (hr' : r' < 32)
    (h : fbaddr (vx + c) (py + r) = fbaddr (vx + c') (py + r')) : c = c' ∧ r = r' := by
  simp only [fbaddr, Config.fbCols, Config.fbRows] at h
  omega

/-- Flipping a cell flips that cell and no other (R161). -/
theorem cell_flip (fb : Frame) {j : Nat} (hj : j < 2048) (k : Nat) :
    (fb.flip j).cell k = if k = j then !fb.cell k else fb.cell k := by
  have row : j / 64 < 32 := by omega
  unfold Frame.cell Frame.flip
  rw [dif_pos row]
  split
  case isFalse =>
    have other : k ≠ j := by omega
    simp [other]
  case isTrue hk =>
    rw [Vector.getElem_set]
    by_cases sameRow : j / 64 = k / 64
    · by_cases sameColumn : j % 64 = k % 64
      · have same : k = j := by omega
        subst same
        simp [Nat.mod_lt]
      · have other : k ≠ j := by omega
        simp [sameRow, sameColumn, other, BitVec.getLsbD_twoPow]
    · have other : k ≠ j := by omega
      simp [sameRow, other]

/-! ### Flipping a list of cells -/

/-- Flipping distinct cells: those of the list are flipped, the others are not, and a collision is a cell of the list that was set. -/
theorem foldl_flipCell {cells : List Nat} (distinct : cells.Nodup) (inside : ∀ k ∈ cells, k < 2048) (fb : Frame) (hit : Bool) :
    (∀ k, (cells.foldl flipCell (fb, hit)).1.cell k = if k ∈ cells then !fb.cell k else fb.cell k) ∧
      (cells.foldl flipCell (fb, hit)).2 = (hit || cells.any fb.cell) := by
  induction cells generalizing fb hit with
  | nil => simp
  | cons j cells ih =>
    obtain ⟨fresh, distinct⟩ := List.nodup_cons.1 distinct
    obtain ⟨cell, collision⟩ := ih distinct (fun k hk => inside k (List.mem_cons_of_mem j hk)) (fb.flip j) (hit || fb.cell j)
    have hj := inside j List.mem_cons_self
    refine ⟨fun k => (cell k).trans ?_, collision.trans ?_⟩
    · rw [cell_flip fb hj]
      by_cases hk : k = j
      · simp [hk, fresh]
      · simp [hk]
    · have same : cells.any (fb.flip j).cell = cells.any fb.cell := by
        rw [Bool.eq_iff_iff, List.any_eq_true, List.any_eq_true]
        refine exists_congr fun k => and_congr_right fun hk => ?_
        have other : k ≠ j := fun e => fresh (e ▸ hk)
        rw [cell_flip fb hj, if_neg other]
      rw [same, List.any_cons, Bool.or_assoc]

/-! ### The cells of a sprite -/

/-- The cells a row's set bits land on, leftmost first (R161). -/
def rowCells (vx py : Nat) (b : Byte) : List Nat :=
  ((List.range 8).filter fun col => b.getLsbD (7 - col)).map fun col => fbaddr (vx + col) py

/-- The cells a sprite's set bits land on, row by row. -/
def spriteCells (vx : Nat) : Nat → List Byte → List Nat
  | _, [] => []
  | py, b :: rows => rowCells vx py b ++ spriteCells vx (py + 1) rows

theorem drawRow_eq_foldl (vx py : Nat) (b : Byte) (acc : Frame × Bool) :
    drawRow vx py b acc = (rowCells vx py b).foldl flipCell acc := by
  rw [rowCells, List.foldl_map, List.foldl_filter]
  rfl

theorem drawRows_eq_foldl (vx py : Nat) (rows : List Byte) (acc : Frame × Bool) :
    drawRows vx py rows acc = (spriteCells vx py rows).foldl flipCell acc := by
  induction rows generalizing py acc with
  | nil => rfl
  | cons b rows ih => rw [drawRows, ih, drawRow_eq_foldl, spriteCells, List.foldl_append]

theorem mem_rowCells {vx py k : Nat} {b : Byte} :
    k ∈ rowCells vx py b ↔ ∃ col < 8, b.getLsbD (7 - col) = true ∧ k = fbaddr (vx + col) py := by
  simp only [rowCells, List.mem_map, List.mem_filter, List.mem_range, and_assoc, eq_comm (a := k)]

theorem mem_spriteCells {vx py k : Nat} {rows : List Byte} :
    k ∈ spriteCells vx py rows ↔ ∃ (row col : Nat) (h : row < rows.length), col < 8 ∧ rows[row].getLsbD (7 - col) = true ∧
      k = fbaddr (vx + col) (py + row) := by
  induction rows generalizing py with
  | nil => simp [spriteCells]
  | cons b rows ih =>
    rw [spriteCells, List.mem_append, mem_rowCells, ih]
    constructor
    · rintro (⟨col, hc, bit, rfl⟩ | ⟨row, col, hr, hc, bit, rfl⟩)
      · exact ⟨0, col, Nat.zero_lt_succ _, hc, bit, rfl⟩
      · exact ⟨row + 1, col, Nat.succ_lt_succ hr, hc, bit, by rw [Nat.add_assoc, Nat.add_comm 1 row]⟩
    · rintro ⟨_ | row, col, hr, hc, bit, rfl⟩
      · exact .inl ⟨col, hc, bit, rfl⟩
      · exact .inr ⟨row, col, Nat.lt_of_succ_lt_succ hr, hc, bit, by rw [Nat.add_assoc, Nat.add_comm 1 row]⟩

theorem nodup_rowCells (vx py : Nat) (b : Byte) : (rowCells vx py b).Nodup := by
  refine List.Nodup.map_on ?_ (List.nodup_range.filter _)
  intro c hc c' hc' h
  simp only [List.mem_filter, List.mem_range] at hc hc'
  exact (fbaddr_inj (r := 0) (r' := 0) (by omega) (by omega) (by decide) (by decide) h).1

/-- The rows of a sprite do not meet: it has at most 32 of them. -/
theorem nodup_spriteCells (vx py : Nat) {rows : List Byte} (h : rows.length ≤ 32) : (spriteCells vx py rows).Nodup := by
  induction rows generalizing py with
  | nil => exact List.nodup_nil
  | cons b rows ih =>
    rw [List.length_cons] at h
    refine List.nodup_append.2 ⟨nodup_rowCells vx py b, ih (py + 1) (by omega), ?_⟩
    intro k hk k' hk' same
    obtain ⟨c, hc, -, rfl⟩ := mem_rowCells.1 hk
    obtain ⟨row, c', hr, hc', -, rfl⟩ := mem_spriteCells.1 hk'
    rw [Nat.add_assoc] at same
    have := (fbaddr_inj (r := 0) (by omega) (by omega) (by decide) (by omega) same).2
    omega

/-! ### The instruction -/

/-- The cells the sprite at `I` hits. -/
def hitCells (s : State) (x y : Reg) (n : BitVec 4) : List Nat :=
  spriteCells (s.reg x).toNat (s.reg y).toNat (s.mem.readRun s.I.toNat n.toNat)

theorem mem_hitCells_iff {s : State} {x y : Reg} {n : BitVec 4} {k : Nat} : k ∈ hitCells s x y n ↔ SpriteHits s x y n k := by
  rw [hitCells, mem_spriteCells]
  constructor
  · rintro ⟨row, col, hr, hc, bit, rfl⟩
    rw [Memory.getElem_readRun] at bit
    exact ⟨row, col, by simpa using hr, hc, bit, rfl⟩
  · rintro ⟨row, col, hr, hc, bit, rfl⟩
    refine ⟨row, col, by simpa using hr, hc, ?_, rfl⟩
    rwa [Memory.getElem_readRun]

theorem nodup_hitCells (s : State) (x y : Reg) (n : BitVec 4) : (hitCells s x y n).Nodup := by
  have := n.isLt
  exact nodup_spriteCells _ _ (by rw [Memory.length_readRun]; omega)

theorem lt_of_mem_hitCells {s : State} {x y : Reg} {n : BitVec 4} (k : Nat) (h : k ∈ hitCells s x y n) : k < 2048 := by
  obtain ⟨row, col, -, -, -, rfl⟩ := mem_spriteCells.1 h
  exact fbaddr_lt _ _

/-- What DXYN leaves when it completes (R161). -/
structure Drawn (s : State) (x y : Reg) (n : BitVec 4) (t : State) : Prop where
  pixel : ∀ k, t.pixel k = if k ∈ hitCells s x y n then !s.pixel k else s.pixel k
  flag : t.reg VF = flagByte ((hitCells s x y n).any s.pixel)
  registers : ∀ r, r ≠ VF → t.reg r = s.reg r
  pc : t.pc = s.pc + 2#16
  mem : t.mem = s.mem
  frame : Unchanged [.registers, .display, .pc] s t

theorem drw_completes {s : State} {n : BitVec 4} (x y : Reg) (inside : SpriteInRange s n) :
    Completes (.drw x y n) s (Drawn s x y n) := by
  have draws := foldl_flipCell (nodup_hitCells s x y n) lt_of_mem_hitCells s.FB false
  rw [hitCells, ← drawRows_eq_foldl] at draws
  obtain ⟨cell, collision⟩ := draws
  refine ⟨_, execDrw_draw x y n inside, cell, ?_, fun r hr => State.reg_writeReg_other _ VF r _ hr, rfl, rfl, ?_⟩
  · exact (State.reg_writeReg_same _ VF _).trans (congrArg flagByte collision)
  · exact (((unchanged_setFB s _).trans (unchanged_writeReg _ _ _)).trans (unchanged_advance _)).mono (by decide)

/-- Settles O29: a cell is hit exactly when it is one of `hitCells`, and the flag is whether one of those was set. -/
theorem drawXorsTheSprite : Obligations.DrawXorsTheSprite := by
  intro x y n s inside
  obtain ⟨t, e, drawn⟩ := drw_completes x y inside
  refine ⟨decodeWord_encode (.drw x y n) rfl, t, e, fun k _ => ⟨fun hit => ?_, fun miss => ?_⟩, ?_, ?_, drawn.registers, drawn.pc,
    drawn.frame⟩
  · rw [drawn.pixel, if_pos (mem_hitCells_iff.2 hit)]
  · rw [drawn.pixel, if_neg (mt mem_hitCells_iff.1 miss)]
  · rintro ⟨k, -, hit, set⟩
    have collision : (hitCells s x y n).any s.pixel = true := List.any_eq_true.2 ⟨k, mem_hitCells_iff.2 hit, set⟩
    rw [drawn.flag, collision]
    rfl
  · intro none
    have collision : (hitCells s x y n).any s.pixel = false := by
      refine Bool.eq_false_iff.2 fun any => none ?_
      obtain ⟨k, hk, set⟩ := List.any_eq_true.1 any
      exact ⟨k, lt_of_mem_hitCells k hk, mem_hitCells_iff.1 hk, set⟩
    rw [drawn.flag, collision]
    rfl

/-- A second draw at the same place hits the same cells. -/
theorem hitCells_of_drawn {s t : State} {x y : Reg} {n : BitVec 4} (drawn : Drawn s x y n t) (hx : x ≠ VF) (hy : y ≠ VF) :
    hitCells t x y n = hitCells s x y n := by
  have index : t.I = s.I := drawn.frame.index (by decide)
  rw [hitCells, drawn.registers x hx, drawn.registers y hy, drawn.mem, index, hitCells]

theorem exists_mem_hitCells {s : State} {n : BitVec 4} (x y : Reg) (h : SpriteNotEmpty s n) : ∃ k, k ∈ hitCells s x y n := by
  obtain ⟨row, col, hr, hc, bit⟩ := h
  exact ⟨_, mem_hitCells_iff.2 ⟨row, col, hr, hc, bit, rfl⟩⟩

/-- Settles O30: both draws flip the same cells, and what the second finds in a cell is the opposite of what the first found. -/
theorem drawingTwiceRestoresTheScreen : Obligations.DrawingTwiceRestoresTheScreen := by
  intro x y n s inside hx hy
  obtain ⟨t, e, first⟩ := drw_completes x y inside
  have index : t.I = s.I := first.frame.index (by decide)
  obtain ⟨u, e', second⟩ := drw_completes (s := t) (n := n) x y (by rwa [SpriteInRange, index])
  have cells : hitCells t x y n = hitCells s x y n := hitCells_of_drawn first hx hy
  have flagSet {v : State} {k : Nat} (hk : k ∈ hitCells s x y n) (set : v.pixel k = true) :
      flagByte ((hitCells s x y n).any v.pixel) = 0x01#8 := by
    rw [List.any_eq_true.2 ⟨k, hk, set⟩]
    rfl
  refine ⟨t, e, u, e', fun k => ?_, fun notEmpty => ?_, fun clear => ⟨?_, fun notEmpty => ?_⟩⟩
  · rw [second.pixel, cells, first.pixel]
    by_cases hk : k ∈ hitCells s x y n <;> simp [hk]
  · obtain ⟨k, hk⟩ := exists_mem_hitCells x y notEmpty
    rw [first.flag, second.flag, cells]
    cases was : s.pixel k
    · exact .inr (flagSet hk (by rw [first.pixel, if_pos hk, was]; rfl))
    · exact .inl (flagSet hk was)
  · have none : (hitCells s x y n).any s.pixel = false := by
      rw [List.any_eq_false]
      exact fun k hk => by simp [clear k (mem_hitCells_iff.1 hk)]
    rw [first.flag, none]
    rfl
  · obtain ⟨k, hk⟩ := exists_mem_hitCells x y notEmpty
    rw [second.flag, cells]
    exact flagSet hk (by rw [first.pixel, if_pos hk, clear k (mem_hitCells_iff.1 hk)]; rfl)

end Sys2Proof.Proofs
end

