-- ==== Sys2Proof/Proofs/Stores.lean ====
section
/-! Memory: its canonical form (log 8), words placed and stored where a fetch reads them, and the stores and loads of spec
46_index_memory.md R183 to R185. -/

namespace Sys2Proof.Proofs

open Sys2Proof.Machine Sys2Proof.Claims Sys2Proof.Laws

/-! ### The canonical form -/

theorem read_of_mem {m : Memory} (sorted : m.Pairwise fun c d => c.1 < d.1) {c : Host.Cell} (h : c ∈ m) : m.read c.1 = c.2 := by
  induction m with
  | nil => exact nomatch h
  | cons d m ih =>
    obtain ⟨below, sorted⟩ := List.pairwise_cons.1 sorted
    rcases List.mem_cons.1 h with rfl | h
    · exact if_pos rfl
    · exact (if_neg (below c h).ne).trans (ih sorted h)

theorem read_of_not_mem {m : Memory} {a : Nat} (h : ∀ c ∈ m, c.1 ≠ a) : m.read a = resetByte a := by
  induction m with
  | nil => rfl
  | cons d m ih =>
    exact (if_neg (h d List.mem_cons_self)).trans (ih fun c hc => h c (List.mem_cons_of_mem d hc))

/-- The cells a canonical memory lists are what its reads tell apart from the reset contents. -/
theorem mem_iff_read {m : Memory} (hm : m.wf) (c : Host.Cell) : c ∈ m ↔ m.read c.1 = c.2 ∧ c.2 ≠ resetByte c.1 := by
  refine ⟨fun h => ⟨read_of_mem hm.1 h, (hm.2 c h).2⟩, fun ⟨read, other⟩ => ?_⟩
  by_contra absent
  refine other (read.symm.trans (read_of_not_mem fun d hd same => absent ?_))
  have cell : d = c := Prod.ext same ((read_of_mem hm.1 hd).symm.trans (by rw [same, read]))
  exact cell ▸ hd

/-- Settles O60: the two lists have the same cells, and both are sorted by address. -/
theorem canonicalMemoriesThatReadAlikeAreEqual : Obligations.CanonicalMemoriesThatReadAlikeAreEqual := by
  intro m m' hm hm' alike
  have nodup {m : Memory} (hm : m.wf) : m.Nodup := hm.1.imp fun lt same => absurd (congrArg Prod.fst same) lt.ne
  have perm : m.Perm m' := (List.perm_ext_iff_of_nodup (nodup hm) (nodup hm')).2 fun c => by
    rw [mem_iff_read hm, mem_iff_read hm', alike]
  exact perm.eq_of_pairwise (fun c d _ _ lt gt => absurd gt lt.not_gt) hm.1 hm'.1

/-! ### A word where a fetch reads it -/

/-- `placeWord` leaves `pc` where two bytes can be fetched. -/
theorem pc_placeWord_le (s : State) (op : Word) : (s.placeWord op).pc.toNat ≤ 0xFFE := by
  simp only [State.placeWord, Config.memSize]
  split_ifs
  · decide
  · omega

theorem pc_placeWord {s : State} (op : Word) (h : s.pc.toNat ≤ 0xFFE) : (s.placeWord op).pc = s.pc :=
  if_neg (by simp only [Config.memSize]; omega)

theorem fetch_placeWord {s : State} (hm : s.mem.wf) (op : Word) : (s.placeWord op).fetch = some op := by
  refine State.fetch_eq_some.2 ⟨pc_placeWord_le s op, ?_⟩
  have byte (k : Nat) (hk : k < 2) :=
    read_writeRun_inside hm (a := (s.placeWord op).pc.toNat) (bs := [highByte op, lowByte op]) (k := k) hk
  exact (wordOfBytes_bytes op).symm.trans
    (congrArg₂ wordOfBytes (byte 0 (by decide)).symm (byte 1 (by decide)).symm)

/-- Settles O3: the placed word is fetched, with the latch clear and the agenda empty, from a state already marked as used. -/
theorem placedWordIsRunNext : Obligations.PlacedWordIsRunNext := by
  intro s w hm hw
  rw [State.withFetchWord, Nat.mod_eq_of_lt (b := 2 ^ 16) hw]
  refine ⟨(step_of_empty rfl).trans (coreStep_of_fetch rfl (fetch_placeWord hm _)), fun hpc => ⟨pc_placeWord _ hpc, ?_⟩⟩
  intro a first second
  have pc := pc_placeWord (BitVec.ofNat 16 w) hpc
  refine read_writeRun_outside (a := (s.placeWord (BitVec.ofNat 16 w)).pc.toNat) (bs := [_, _]) hm ?_
  rw [pc]
  simp only [List.length_cons, List.length_nil]
  omega

/-! ### Stores -/

/-- What a stored block of registers reads as (R184). -/
theorem read_writeRun_regBlock {s : State} (hm : s.mem.wf) {x r : Reg} (a : Nat) (h : r.val ≤ x.val) :
    (s.mem.writeRun a (s.regBlock x)).read (a + r.val) = s.reg r := by
  rw [Memory.read_writeRun _ _ _ hm.1, if_pos (Nat.le_add_right a r), Nat.add_sub_cancel_left, State.getD_regBlock _ _ _ _ h]

/-- Settles O4: the two stored bytes are the two bytes of the fetch. -/
theorem storedWordIsFetchedAtOnce : Obligations.StoredWordIsFetchedAtOnce := by
  intro s hm hI
  refine ⟨_, execStoreRegs_store 1 (by simp; omega), State.fetch_eq_some.2 ⟨hI, ?_⟩⟩
  have high := read_writeRun_regBlock hm (x := 1) (r := 0) s.I.toNat (by decide)
  have low := read_writeRun_regBlock hm (x := 1) (r := 1) s.I.toNat (by decide)
  exact congrArg₂ wordOfBytes high.symm low.symm

theorem unchanged_setMem_advance (s : State) (m : Memory) : Unchanged [.memory, .pc] s (s.setMem m).advance :=
  (unchanged_setMem s m).trans (unchanged_advance _)

/-- Settles O41: the run of writes holds the registers in order and reaches no other byte. -/
theorem storeRegisterBlock : Obligations.StoreRegisterBlock := by
  intro x s hm inside
  rw [hex4_eq_wordXNN]
  refine ⟨decodeWord_encode (.storeRegs x) rfl, _, execStoreRegs_store x inside, fun r hr => read_writeRun_regBlock hm _ hr, ?_, rfl,
    unchanged_setMem_advance s _⟩
  exact fun a outside => read_writeRun_outside hm (by rw [State.length_regBlock]; omega)

/-- Settles O40: the digits are numbers below 256. -/
theorem storeDecimalDigits : Obligations.StoreDecimalDigits := by
  intro x s hm inside
  rw [hex4_eq_wordXNN]
  have v := (s.reg x).isLt
  have digit (k : Nat) (hk : k < 3) :=
    congrArg BitVec.toNat (read_writeRun_inside hm (a := s.I.toNat) (bs := bcdDigits (s.reg x)) (k := k) hk)
  refine ⟨decodeWord_encode (.ldB x) rfl, _, execLdB_store x inside, (digit 0 (by decide)).trans ?_,
    (digit 1 (by decide)).trans ?_, (digit 2 (by decide)).trans ?_, fun a outside => read_writeRun_outside hm ?_, rfl,
    unchanged_setMem_advance s _⟩
  · exact (BitVec.toNat_ofNat _ _).trans (Nat.mod_eq_of_lt (by omega))
  · exact (BitVec.toNat_ofNat _ _).trans (Nat.mod_eq_of_lt (by omega))
  · exact (BitVec.toNat_ofNat _ _).trans (Nat.mod_eq_of_lt (by omega))
  · simp only [bcdDigits, List.length_cons, List.length_nil]
    omega

/-! ### Loads -/

/-- What a register holds after a block is loaded (R185). -/
theorem reg_writeRegBlock_readRun (s : State) (m : Memory) (a : Nat) (x r : Reg) :
    (s.writeRegBlock (m.readRun a (x.val + 1))).reg r = if r.val ≤ x.val then m.read (a + r.val) else s.reg r := by
  rw [State.reg_writeRegBlock]
  split_ifs with h
  · have loaded : r.val < (m.readRun a (x.val + 1)).length := by rw [Memory.length_readRun]; omega
    rw [List.getD_eq_getElem _ _ loaded, Memory.getElem_readRun]
  · exact List.getD_eq_default _ _ (by rw [Memory.length_readRun]; omega)

/-- Settles O42: the block holds the bytes in order and reaches no higher register. -/
theorem loadRegisterBlock : Obligations.LoadRegisterBlock := by
  intro x s inside
  rw [hex4_eq_wordXNN]
  refine ⟨decodeWord_encode (.loadRegs x) rfl, _, execLoadRegs_load x inside, fun r hr => ?_, fun r hr => ?_, rfl,
    (unchanged_writeRegBlock s _).trans (unchanged_advance _)⟩
  · exact (reg_writeRegBlock_readRun s s.mem _ x r).trans (if_pos hr)
  · exact (reg_writeRegBlock_readRun s s.mem _ x r).trans (if_neg (Nat.not_le_of_lt hr))

/-- Settles O43: the load reads back the block the store wrote, and neither touches `I`. -/
theorem loadBlockUndoesStoreBlock : Obligations.LoadBlockUndoesStoreBlock := by
  intro x s regs hm inside
  refine ⟨_, execStoreRegs_store x inside, _, execLoadRegs_load x inside, fun r hr => ?_, fun r hr => ?_, rfl⟩
  · exact (reg_writeRegBlock_readRun _ _ _ x r).trans ((if_pos hr).trans (read_writeRun_regBlock hm _ hr))
  · exact (reg_writeRegBlock_readRun _ _ _ x r).trans (if_neg (Nat.not_le_of_lt hr))

/-! ### Out of range -/

theorem onlyLatched_addressOutOfBounds (s : State) (a : Nat) :
    OnlyLatched .addressOutOfBounds (BitVec.ofNat 16 a) s (s.raise .addressOutOfBounds a) :=
  ⟨rfl, rfl, unchanged_raise s _ a⟩

/-- Settles O44: each instruction's fault case. -/
theorem memoryInstructionsFaultOutOfRange : Obligations.MemoryInstructionsFaultOutOfRange := by
  intro x y n s
  exact ⟨fun h0 h => ⟨_, execDrw_fault x y n h0 (by omega), onlyLatched_addressOutOfBounds s _⟩,
    fun h => ⟨_, execLdB_fault x h, onlyLatched_addressOutOfBounds s _⟩,
    fun h => ⟨⟨_, execStoreRegs_fault x h, onlyLatched_addressOutOfBounds s _⟩,
      ⟨_, execLoadRegs_fault x h, onlyLatched_addressOutOfBounds s _⟩⟩⟩

end Sys2Proof.Proofs
end

