-- ==== Sys2Proof/Proofs/Flow.lean ====
section
/-! Control transfer and the skips (spec 40_flow_control.md, 41_skip.md): each word decoded, where it leaves `pc` and the stack, and its
frame. -/

namespace Sys2Proof.Proofs

open Sys2Proof.Machine Sys2Proof.Claims Sys2Proof.Laws

/-! ### Jump, call, return -/

theorem address12_eq_of_toNat {nnn : BitVec 12} {v : Word} (h : v.toNat = nnn.toNat) : address12 nnn = v :=
  BitVec.eq_of_toNat_eq ((toNat_address12 nnn).trans h.symm)

/-- With an empty agenda and a clear latch, the step after `pc` was left past the last word latches `pc`. -/
theorem step_latches_pc {s : State} (clear : s.FAULT.kind = .none) (agenda : s.agenda = []) (h : 0xFFF ≤ s.pc.toNat) :
    ∃ t, step s = .next t ∧ OnlyLatched .addressOutOfBounds s.pc s.touch t := by
  rw [step_of_empty agenda]
  exact coreStep_latches_pc clear h

/-- Settles O9: the target is the zero-extended operand; its own address leaves `pc` as it is, 0xFFF leaves no room for a fetch. -/
theorem jumpSetsPc : Obligations.JumpSetsPc := by
  intro nnn s
  refine ⟨decodeWord_encode (.jp nnn) rfl, s.setPc (address12 nnn), rfl, toNat_address12 nnn, unchanged_setPc s _, ?_, ?_⟩
  · intro own
    rw [address12_eq_of_toNat own]
    rfl
  · rintro rfl clear agenda
    exact step_latches_pc (s := s.setPc (address12 0xFFF#12)) clear agenda
      (by decide : 0xFFF ≤ (address12 0xFFF#12).toNat)

theorem unchanged_call (s : State) (cells : Vector Word 16) (sp : Fin 17) (target : Word) :
    Unchanged [.pc, .stack] s (({ s with STACK := cells, SP := sp } : State).setPc target) :=
  ((unchanged_stack s cells sp).trans (unchanged_setPc _ _)).mono (by decide)

/-- Settles O10: with room the cell at the old `SP` is written and no other; with none the push fails. -/
theorem callPushesItsAddress : Obligations.CallPushesItsAddress := by
  intro nnn s
  refine ⟨decodeWord_encode (.call nnn) rfl, fun h => ?_, fun full => ?_⟩
  · refine ⟨_, execCall_push nnn h, toNat_address12 nnn, rfl, ?_, fun k hk other => ?_, unchanged_call s _ _ _⟩
    · exact Vector.getElem_set_self h
    · exact Vector.getElem_set_ne h hk other.symm
  · exact ⟨_, execCall_full nnn full, rfl, rfl, unchanged_raise s _ _⟩

/-- Settles O11: with an entry the pop leaves the cells as they are; with none it fails. -/
theorem returnPopsAndAdvances : Obligations.ReturnPopsAndAdvances := by
  intro s
  refine ⟨by decide, fun k h depth => ?_, fun empty => ?_⟩
  · exact ⟨_, execRet_pop h depth, rfl, rfl, rfl, unchanged_call s s.STACK _ _⟩
  · exact ⟨_, execRet_empty empty, rfl, rfl, unchanged_raise s _ _⟩

/-- Settles O12: RET pops the cell the CALL pushed. -/
theorem returnUndoesCall : Obligations.ReturnUndoesCall := by
  intro nnn s h
  obtain ⟨-, room, -⟩ := callPushesItsAddress nnn s
  obtain ⟨t, called, -, depth, top, others, callFrame⟩ := room h
  obtain ⟨-, pops, -⟩ := returnPopsAndAdvances t
  obtain ⟨u, returned, pc, sp, cells, retFrame⟩ := pops s.SP.val h depth
  refine ⟨t, called, u, returned, by rw [pc, top], Fin.ext sp, fun k hk below => ?_, (callFrame.trans retFrame).mono (by decide)⟩
  rw [← others k hk below.ne]
  simp only [cells]

/-! ### Warned no-ops -/

theorem unchanged_warn_advance (s : State) (op : Word) : Unchanged [.pc, .warnings] s (s.warn op).advance :=
  ((unchanged_warn s op).trans (unchanged_advance _)).mono (by decide)

/-- Settles O13: both are a warning followed by an advance; a SYS operand other than those of CLS and RET is well-formed. -/
theorem unrecognizedWordsWarnAndAdvance : Obligations.UnrecognizedWordsWarnAndAdvance := by
  intro s op
  refine ⟨fun nnn cls ret => ⟨decodeWord_encode (.sys nnn) ?_, _, rfl, rfl, rfl, unchanged_warn_advance s _⟩,
    _, rfl, rfl, rfl, unchanged_warn_advance s op⟩
  simp [Instr.wf, cls, ret]

/-- Settles O14: one case per value of the mode. -/
theorem jumpV0FollowsItsMode : Obligations.JumpV0FollowsItsMode := by
  intro nnn s
  refine ⟨decodeWord_encode (.jpV0 nnn) rfl, fun mode => ?_, fun mode => ?_⟩
  · exact ⟨_, execJpV0_unrecognized nnn mode, rfl, rfl, unchanged_warn_advance s _⟩
  · exact ⟨_, execJpV0_jump nnn mode, toNat_address12_add_regWord nnn s 0, unchanged_setPc s _⟩

/-! ### Skips -/

theorem effectOf_of_isSkip {i : Instr} (s : State) (h : IsSkip i) : ∃ c, effectOf i s = .skip c := by
  cases i with
  | seImm | sneImm | seReg | sneReg | skp | sknp => exact ⟨_, rfl⟩
  | _ => exact h.elim

/-- The condition of a skip does not read memory. -/
theorem effectOf_with_mem {i : Instr} (s : State) (h : IsSkip i) (m : Memory) : effectOf i { s with mem := m } = effectOf i s := by
  cases i with
  | seImm | sneImm | seReg | sneReg | skp | sknp => rfl
  | _ => exact h.elim

/-- Settles O15: the word stepped over is in memory, which the condition does not read. -/
theorem skipsWriteOnlyPc : Obligations.SkipsWriteOnlyPc := by
  intro i s skip
  obtain ⟨c, e⟩ := effectOf_of_isSkip s skip
  have exec_with_mem (m : Memory) : exec i { s with mem := m } = .next { s.skipIf c with mem := m } := by
    rw [exec_eq, effectOf_with_mem s skip, e]
    rfl
  refine ⟨s.skipIf c, exec_with_mem s.mem, ?_, unchanged_skipIf s c, exec_with_mem, ?_, ?_, ?_⟩
  · cases c
    · exact .inr rfl
    · exact .inl rfl
  · intro at0xFFC skipped
    rw [skipped, at0xFFC]
    rfl
  · intro at0xFFE
    rw [State.skipIf_pc, at0xFFE]
    cases c
    · exact .inr rfl
    · exact .inl rfl
  · intro past clear agenda
    exact step_latches_pc clear agenda (Nat.le_of_succ_le past)

theorem skipsExactlyWhen_skipIf {c : Bool} {P : Prop} (s : State) (h : c = true ↔ P) : SkipsExactlyWhen P s (s.skipIf c) := by
  refine ⟨fun hp => ?_, fun hp => ?_, unchanged_skipIf s c⟩
  · rw [State.skipIf_pc, if_pos (h.2 hp)]
  · rw [State.skipIf_pc, if_neg (mt h.1 hp)]

theorem beq_iff_toNat (a b : Byte) : (a == b) = true ↔ a.toNat = b.toNat := beq_iff_eq.trans BitVec.toNat_inj.symm

theorem bne_iff_toNat (a b : Byte) : (a != b) = true ↔ a.toNat ≠ b.toNat := bne_iff_ne.trans (not_congr BitVec.toNat_inj.symm)

/-- Settles O16: the comparison of bytes is that of their numbers. -/
theorem immediateSkipsCompare : Obligations.ImmediateSkipsCompare := by
  intro x nn s
  exact ⟨decodeWord_encode (.seImm x nn) rfl, decodeWord_encode (.sneImm x nn) rfl,
    ⟨_, rfl, skipsExactlyWhen_skipIf s (beq_iff_toNat _ _)⟩, ⟨_, rfl, skipsExactlyWhen_skipIf s (bne_iff_toNat _ _)⟩⟩

/-- Families 5 and 9 do not look at the low digit (R79, D13). -/
theorem decodeWord_seReg (x y : Reg) {n : Nat} (hn : n < 16) : decodeWord (wordXYN 0x5 x y n) = .seReg x y := by
  have family : slice (wordXYN 0x5 x y n) 15 12 = 0x5 := FamilyDigit.wordXYN_family _ _ _ _ (by decide) x.isLt y.isLt hn
  simp only [decodeWord, family, fieldX_wordXYN _ _ _ _ y.isLt hn, fieldY_wordXYN _ _ _ _ hn]

theorem decodeWord_sneReg (x y : Reg) {n : Nat} (hn : n < 16) : decodeWord (wordXYN 0x9 x y n) = .sneReg x y := by
  have family : slice (wordXYN 0x9 x y n) 15 12 = 0x9 := FamilyDigit.wordXYN_family _ _ _ _ (by decide) x.isLt y.isLt hn
  simp only [decodeWord, family, fieldX_wordXYN _ _ _ _ y.isLt hn, fieldY_wordXYN _ _ _ _ hn]

/-- Settles O17: as O16, the words with any low digit. -/
theorem registerSkipsCompare : Obligations.RegisterSkipsCompare := by
  intro x y n s
  exact ⟨decodeWord_seReg x y n.isLt, decodeWord_sneReg x y n.isLt, ⟨_, rfl, skipsExactlyWhen_skipIf s (beq_iff_toNat _ _)⟩,
    ⟨_, rfl, skipsExactlyWhen_skipIf s (bne_iff_toNat _ _)⟩⟩

/-- A pressed key has a number up to 15 (D14). -/
theorem pressed_iff (s : State) (k : Nat) : s.pressed k = true ↔ k ≤ 15 ∧ s.KEY.getLsbD k = true :=
  ⟨fun h => ⟨Nat.le_of_lt_succ (BitVec.lt_of_getLsbD h), h⟩, And.right⟩

/-- Settles O18: SKNP's condition is the negation of SKP's. -/
theorem keySkipsTestTheKeypad : Obligations.KeySkipsTestTheKeypad := by
  intro x s
  rw [hex4_eq_wordXNN, hex4_eq_wordXNN]
  refine ⟨decodeWord_encode (.skp x) rfl, decodeWord_encode (.sknp x) rfl,
    ⟨_, rfl, skipsExactlyWhen_skipIf s (pressed_iff s _)⟩, ⟨_, rfl, skipsExactlyWhen_skipIf s ?_⟩⟩
  rw [← pressed_iff, Bool.not_eq_true']
  exact Bool.eq_false_iff

end Sys2Proof.Proofs
end

