-- ==== Sys2Proof/Proofs/Registers.lean ====
section
/-! The instructions that write a register or a timer (spec 42_immediate_random.md, 43_alu.md, 45_timer_key.md, 46_index_memory.md R181):
each word decoded, the value written as a number, and the frame. -/

namespace Sys2Proof.Proofs

open Sys2Proof.Machine Sys2Proof.Claims Sys2Proof.Laws

/-! ### Immediate, random, copy and logic -/

/-- Settles O20: a register write, whose value as a number is the sum mod 256. -/
theorem addImmediateWrapsWithoutFlag : Obligations.AddImmediateWrapsWithoutFlag := by
  intro x nn s
  obtain ⟨dest, others, pc, frame⟩ := writesOnly_writeReg_advance s x (s.reg x + nn)
  have sum := (congrArg BitVec.toNat dest).trans (BitVec.toNat_add _ _)
  exact ⟨decodeWord_encode (.addImm x nn) rfl, _, rfl, sum, others, pc, frame⟩

/-- Settles O21: the draw is the head of the queue where there is one, and one draw is consumed in any case. -/
theorem randomIsAMaskedDraw : Obligations.RandomIsAMaskedDraw := by
  intro x nn s
  have dest := State.reg_writeReg_same s.consumeDraw x (s.nextDraw &&& nn)
  refine ⟨decodeWord_encode (.rnd x nn) rfl, fun r q queue => ⟨_, rfl, ?_, ?_⟩,
    _, rfl, ⟨s.nextDraw, dest⟩, rfl, rfl, fun r hr => State.reg_writeReg_other s.consumeDraw x r _ hr, rfl, ?_⟩
  · exact dest.trans (by rw [State.nextDraw_cons queue])
  · exact congrArg List.tail queue
  · exact ((unchanged_consumeDraw s).trans (unchanged_writeReg_advance _ _ _)).mono (by decide)

/-- Settles O22: four register writes. -/
theorem copyAndLogicWriteNoFlag : Obligations.CopyAndLogicWriteNoFlag := by
  intro x y s
  exact ⟨⟨decodeWord_encode (.ldReg x y) rfl, _, rfl, writesOnly_writeReg_advance s x _⟩,
    ⟨decodeWord_encode (.orReg x y) rfl, _, rfl, writesOnly_writeReg_advance s x _⟩,
    ⟨decodeWord_encode (.andReg x y) rfl, _, rfl, writesOnly_writeReg_advance s x _⟩,
    ⟨decodeWord_encode (.xorReg x y) rfl, _, rfl, writesOnly_writeReg_advance s x _⟩⟩

/-! ### Results with a flag -/

/-- The result goes to `V[x]` and then the flag to VF, which wins when they are the same (R149, D8). -/
theorem writesWithFlag_writeWithFlag (s : State) (x : Reg) {rf : Byte × Bool} {v : Nat} {f : Prop} (hv : rf.1.toNat = v)
    (hf : rf.2 = true ↔ f) : WritesWithFlag x v f s (s.writeWithFlag x rf) := by
  have flag : (s.writeWithFlag x rf).reg VF = flagByte rf.2 := State.reg_writeReg_same _ VF _
  refine ⟨fun other => ?_, fun set => ?_, fun clear => ?_, fun r hr hvf => ?_, rfl, ?_⟩
  · have dest : (s.writeWithFlag x rf).reg x = rf.1 :=
      (State.reg_writeReg_other _ VF x _ other).trans (State.reg_writeReg_same s x _)
    rw [dest, hv]
  · rw [flag, hf.2 set]
    rfl
  · rw [flag, Bool.eq_false_iff.2 (mt hf.1 clear)]
    rfl
  · exact (State.reg_writeReg_other _ VF r _ hvf).trans (State.reg_writeReg_other s x r _ hr)
  · exact ((unchanged_writeReg s x _).trans (unchanged_writeReg_advance _ VF _)).mono (by decide)

/-- Settles O23: the sum is reduced by its width, and the carry is decided on the exact sum. -/
theorem addSetsCarry : Obligations.AddSetsCarry := by
  intro x y s
  exact ⟨decodeWord_encode (.addReg x y) rfl, _, rfl,
    writesWithFlag_writeWithFlag s x (BitVec.toNat_ofNat _ _) decide_eq_true_iff⟩

theorem toNat_sub_byte (a b : Byte) : (a - b).toNat = (a.toNat + 256 - b.toNat) % 256 := by
  have := b.isLt
  rw [BitVec.toNat_sub]
  omega

/-- Settles O24: one subtraction, with the operands in either order. -/
theorem subtractsSetNotBorrow : Obligations.SubtractsSetNotBorrow := by
  intro x y s
  exact ⟨decodeWord_encode (.subReg x y) rfl, decodeWord_encode (.subnReg x y) rfl,
    ⟨_, rfl, writesWithFlag_writeWithFlag s x (toNat_sub_byte _ _) decide_eq_true_iff⟩,
    ⟨_, rfl, writesWithFlag_writeWithFlag s x (toNat_sub_byte _ _) decide_eq_true_iff⟩⟩

/-- Family 8 with the low digit of a shift does not look at `y` (R79, D9). -/
theorem decodeWord_shift (x y : Reg) {n : Nat} (hn : n < 16) :
    decodeWord (wordXYN 0x8 x y n) = decodeFamily8 (wordXYN 0x8 x y n) := by
  have family : slice (wordXYN 0x8 x y n) 15 12 = 0x8 := FamilyDigit.wordXYN_family _ _ _ _ (by decide) x.isLt y.isLt hn
  simp only [decodeWord, family]

theorem decodeWord_shr (x y : Reg) : decodeWord (wordXYN 0x8 x y 0x6) = .shr x := by
  rw [decodeWord_shift x y (by decide)]
  simp only [decodeFamily8, lowNibble_wordXYN 0x8 x y 0x6 (by decide), fieldX_wordXYN 0x8 x y 0x6 y.isLt (by decide)]

theorem decodeWord_shl (x y : Reg) : decodeWord (wordXYN 0x8 x y 0xE) = .shl x := by
  rw [decodeWord_shift x y (by decide)]
  simp only [decodeFamily8, lowNibble_wordXYN 0x8 x y 0xE (by decide), fieldX_wordXYN 0x8 x y 0xE y.isLt (by decide)]

theorem toNat_shiftRight (a : Byte) : (shiftRight a).1.toNat = a.toNat / 2 := by
  simp [shiftRight, BitVec.toNat_ushiftRight, Nat.shiftRight_eq_div_pow]

theorem shiftRight_flag (a : Byte) : (shiftRight a).2 = true ↔ a.toNat % 2 = 1 := by
  have bit : (shiftRight a).2 = decide (a.toNat % 2 = 1) := (BitVec.testBit_toNat a).symm.trans (Nat.testBit_zero a.toNat)
  rw [bit, decide_eq_true_iff]

theorem toNat_shiftLeft (a : Byte) : (shiftLeft a).1.toNat = a.toNat * 2 % 256 := by
  simp [shiftLeft, BitVec.toNat_shiftLeft, Nat.shiftLeft_eq]

theorem shiftLeft_flag (a : Byte) : (shiftLeft a).2 = true ↔ 128 ≤ a.toNat := by
  have := a.isLt
  have bit : (shiftLeft a).2 = decide (a.toNat / 2 ^ 7 % 2 = 1) :=
    (BitVec.testBit_toNat a).symm.trans Nat.testBit_eq_decide_div_mod_eq
  rw [bit, decide_eq_true_iff]
  omega

/-- Settles O25: halving with the lowest bit, doubling with the highest. -/
theorem shiftsSetShiftedOutBit : Obligations.ShiftsSetShiftedOutBit := by
  intro x y s
  exact ⟨decodeWord_shr x y, decodeWord_shl x y,
    ⟨_, rfl, writesWithFlag_writeWithFlag s x (toNat_shiftRight _) (shiftRight_flag _)⟩,
    ⟨_, rfl, writesWithFlag_writeWithFlag s x (toNat_shiftLeft _) (shiftLeft_flag _)⟩⟩

/-! ### Timers, the key wait and the index register -/

/-- Settles O31: the low byte selects the timer and the direction; each is one write and an advance. -/
theorem timerInstructionsMoveTheirTimer : Obligations.TimerInstructionsMoveTheirTimer := by
  intro x s
  rw [hex4_eq_wordXNN, hex4_eq_wordXNN, hex4_eq_wordXNN]
  exact ⟨⟨decodeWord_encode (.ldVxDt x) rfl, _, rfl, writesOnly_writeReg_advance s x s.DT⟩,
    ⟨decodeWord_encode (.ldDtVx x) rfl, _, rfl, rfl, rfl, (unchanged_setDT s _).trans (unchanged_advance _)⟩,
    ⟨decodeWord_encode (.ldStVx x) rfl, _, rfl, rfl, rfl, (unchanged_setST s _).trans (unchanged_advance _)⟩⟩

/-- Settles O32: a key number is below 16 and so is kept by the byte it is written as. -/
theorem keyWaitTakesTheLowestKey : Obligations.KeyWaitTakesTheLowestKey := by
  intro x s
  rw [hex4_eq_wordXNN]
  refine ⟨decodeWord_encode (.ldVxK x) rfl, fun k hk pressed lowest => ?_, fun none => execLdVxK_blocked x none⟩
  obtain ⟨dest, others, pc, frame⟩ := writesOnly_writeReg_advance s x (BitVec.ofNat 8 k)
  refine ⟨_, execLdVxK_key x hk pressed lowest, ?_, others, pc, frame⟩
  rw [dest, BitVec.toNat_ofNat]
  omega

/-- Settles O38: the zero-extended register is added, and the sum is reduced by the width of `I`. -/
theorem addIndexWrapsWithoutFlag : Obligations.AddIndexWrapsWithoutFlag := by
  intro x s
  rw [hex4_eq_wordXNN]
  have zext : (s.regWord x).toNat = (s.reg x).toNat := BitVec.toNat_setWidth_of_le (by decide)
  have sum : (s.I + s.regWord x).toNat = (s.I.toNat + (s.reg x).toNat) % 65536 := by rw [BitVec.toNat_add, zext]
  exact ⟨decodeWord_encode (.addI x) rfl, _, rfl, sum, rfl, unchanged_setI_advance s _⟩

end Sys2Proof.Proofs
end
